-- ==== Sys2Proof/Word.lean ====
section
/-! DEFINITION. The fixed-width words of the GF engine: bytes of data memory (10_state.md R34, 20_memory.md R50),
32-bit command words and element registers (10_state.md R21), and the 64-bit carrier of the address registers,
of which `AW` bits are in use (00_scope.md R8: `AW` is 16 to 64; notes/assumptions/7.md). -/

namespace Sys2Proof

/-- A byte of data memory (20_memory.md R50). -/
abbrev Byte := BitVec 8

/-- A 32-bit register or command word (10_state.md R21). -/
abbrev Word := BitVec 32

/-- The carrier of an `AW`-bit register: its value stays below `2^AW` (10_state.md R25). -/
abbrev Addr := BitVec 64

end Sys2Proof
end

