-- ==== Sys2Proof/Syntax.lean ====
section
/-! DEFINITION. The abstract syntax of the engine's commands (00_scope.md R3, 30_encoding.md R80 to R85): the three
field widths, the width field of a command word, and the six commands, one constructor per row of
spec/opcode_table.json. -/

namespace Sys2Proof

/-- The supported field widths, exactly 8, 16 and 32 (00_scope.md R8 `WIDTHS`, 90_conflicts.md C5). -/
inductive Width where
  | w8
  | w16
  | w32
  deriving DecidableEq, Repr

/-- The number of bits `w` of an element. -/
def Width.bits : Width → Nat
  | .w8 => 8
  | .w16 => 16
  | .w32 => 32

/-- `B_w = w / 8`, the element size in bytes (00_scope.md R11). -/
def Width.bytes : Width → Nat
  | .w8 => 1
  | .w16 => 2
  | .w32 => 4

/-- `N_w = 2^w - 1`, the order of the multiplicative group (00_scope.md R11). -/
def Width.order (w : Width) : Nat := 2 ^ w.bits - 1

/-- A field element of width `w`: an unsigned integer of exactly `w` bits (00_scope.md R13). -/
abbrev Elem (w : Width) := BitVec w.bits

/-- The field `W` of a command word (30_encoding.md R82): a supported width, or the code `0b11`, which selects none
and is the source's "unsupported width". -/
inductive WidthCode where
  | supported (w : Width)
  | unsupported
  deriving DecidableEq, Repr

/-- The six commands (30_encoding.md R83). A width-carrying command keeps the width code `0b11`: such a word matches the
command's row and raises ConfigurationError when it runs (30_encoding.md R82, R87). -/
inductive Instr where
  /-- `init_field.w` (40_field_tables.md R110) -/
  | initField (w : WidthCode)
  /-- `multiply.w` (41_element_arithmetic.md R121) -/
  | multiply (w : WidthCode)
  /-- `divide.w` (41_element_arithmetic.md R122) -/
  | divide (w : WidthCode)
  /-- `inverse.w` (41_element_arithmetic.md R123) -/
  | inverse (w : WidthCode)
  /-- `region_xor` (42_region_ops.md R141) -/
  | regionXor
  /-- `region_multiply.w` and, with `acc`, `region_multiply.w.acc` (42_region_ops.md R142) -/
  | regionMultiply (w : WidthCode) (acc : Bool)
  deriving DecidableEq, Repr

end Sys2Proof
end

