-- ==== Sys2Proof/WellFormed.lean ====
section
/-! DEFINITION. Which commands are legal (30_encoding.md R84). The constructors of `Instr` already rule out what R86 calls
illegal (an accumulate flag outside `region_multiply`, a width on `region_xor`, a reserved operation code), so one check is
left, made for each of the five width-carrying commands: the width is supported. The 19 well-formed commands are the 19
legal words of R84; the 6 others are the words of R87 that raise ConfigurationError. -/

namespace Sys2Proof

/-- The width field selects one of the widths 8, 16, 32 (30_encoding.md R82). -/
def WidthCode.isSupported : WidthCode → Bool
  | .supported _ => true
  | .unsupported => false

/-- The width code a command carries; `region_xor` carries none (30_encoding.md R82). -/
def Instr.widthCode? : Instr → Option WidthCode
  | .initField w => some w
  | .multiply w => some w
  | .divide w => some w
  | .inverse w => some w
  | .regionXor => none
  | .regionMultiply w _ => some w

/-- The check: a width code, where the command carries one, is supported. -/
def Instr.isLegal (i : Instr) : Bool :=
  match i.widthCode? with
  | some c => c.isSupported
  | none => true

/-- A command is well formed when it is one of the 19 legal commands of 30_encoding.md R84. -/
abbrev Instr.WellFormed (i : Instr) : Prop := i.isLegal = true

end Sys2Proof
end

