-- ==== Sys2Proof/Decode.lean ====
section
/-! DEFINITION. Decoding and encoding of command words (30_encoding.md R80 to R87). The engine fetches nothing from memory
(20_memory.md R70): what is decoded is the 32-bit value the host writes to `CMD`. The decoder is total on 32-bit words; a
word it rejects, by name, is an illegal word of R86 and raises IllegalCommand when it is written to `CMD`. -/

namespace Sys2Proof

/-- Why a word is illegal (30_encoding.md R86). A word may break several conditions; all have the same effect. -/
inductive Reject where
  /-- `c[31:7] != 0` -/
  | reservedBits
  /-- `OP` is `0x0` or in `0x7 .. 0xF` -/
  | reservedOp
  /-- `ACC = 1` and `OP` is not `0x6` -/
  | accNotAllowed
  /-- `OP = 0x5` (`region_xor`) and `W != 0b00` -/
  | widthOnRegionXor
  deriving DecidableEq, Repr

/-- `OP = c[3:0]` (30_encoding.md R81). -/
def opField (c : Word) : BitVec 4 := c.extractLsb' 0 4

/-- `W = c[5:4]` (30_encoding.md R81). -/
def wField (c : Word) : BitVec 2 := c.extractLsb' 4 2

/-- `ACC = c[6]` (30_encoding.md R81). -/
def accField (c : Word) : Bool := c.getLsbD 6

/-- `RSV = c[31:7]` (30_encoding.md R81). -/
def rsvField (c : Word) : BitVec 25 := c.extractLsb' 7 25

/-- The width a width code selects (30_encoding.md R82). -/
def widthOfField (f : BitVec 2) : WidthCode :=
  if f = 0b00#2 then .supported .w8
  else if f = 0b01#2 then .supported .w16
  else if f = 0b10#2 then .supported .w32
  else .unsupported

/-- The command of a word whose reserved bits are 0, for the operations that take no accumulate flag. -/
def withoutAcc (c : Word) (i : Instr) : Except Reject Instr :=
  if accField c then .error .accNotAllowed else .ok i

/-- The decoder (30_encoding.md R81 to R87): the command of a 32-bit word, or why it is illegal. -/
def decodeWord (c : Word) : Except Reject Instr :=
  if rsvField c = 0#25 then
    if opField c = 0x1#4 then withoutAcc c (.initField (widthOfField (wField c)))
    else if opField c = 0x2#4 then withoutAcc c (.multiply (widthOfField (wField c)))
    else if opField c = 0x3#4 then withoutAcc c (.divide (widthOfField (wField c)))
    else if opField c = 0x4#4 then withoutAcc c (.inverse (widthOfField (wField c)))
    else if opField c = 0x5#4 then
      if wField c = 0b00#2 then withoutAcc c .regionXor else .error .widthOnRegionXor
    else if opField c = 0x6#4 then .ok (.regionMultiply (widthOfField (wField c)) (accField c))
    else .error .reservedOp
  else .error .reservedBits

/-- The width code of a width (30_encoding.md R82). -/
def fieldOfWidth : WidthCode → BitVec 2
  | .supported .w8 => 0b00#2
  | .supported .w16 => 0b01#2
  | .supported .w32 => 0b10#2
  | .unsupported => 0b11#2

/-- A command word from its fields: `{RSV = 0, ACC, W, OP}` (30_encoding.md R81). -/
def packWord (op : BitVec 4) (w : BitVec 2) (acc : Bool) : Word :=
  0#25 ++ BitVec.ofBool acc ++ w ++ op

/-- The encoder (30_encoding.md R83): the command word of a command. -/
def encode : Instr → Word
  | .initField w => packWord 0x1#4 (fieldOfWidth w) false
  | .multiply w => packWord 0x2#4 (fieldOfWidth w) false
  | .divide w => packWord 0x3#4 (fieldOfWidth w) false
  | .inverse w => packWord 0x4#4 (fieldOfWidth w) false
  | .regionXor => packWord 0x5#4 0b00#2 false
  | .regionMultiply w acc => packWord 0x6#4 (fieldOfWidth w) acc

/-- The instruction the decoder reads from a word numbered as spec/opcode_table.json numbers it: bit 0 is the least
significant bit, and the bits from `nbits` up are 0. Every row is one 32-bit word (30_encoding.md R80), which is written to
`CMD` as one value, so no byte order takes part. -/
def decodeTableWord (nbits w : Nat) : Option Instr :=
  match decodeWord (BitVec.ofNat 32 (w % 2 ^ nbits)) with
  | .ok i => some i
  | .error _ => none

end Sys2Proof
end

