-- ==== Sys2Proof/Config.lean ====
section
/-! DEFINITION. The parameters of the engine (00_scope.md R8) and the free values of the model. The parameters are an
argument of the model, fixed for a run (10_state.md R36): a machine state carries them in the field `cfg`, which no step
changes, so that a claim can quantify over them; `State.reset` takes the defaults of R8. `STRATEGY[w]` and `WORDBYTES` are
not carried: no rule depends on them (92_eei_decisions.md D25, 93_implementation_defined.md U4, U5; notes/assumptions/5.md). The two `opaque`
constants are the values the spec calls *any value* (00_scope.md R18): they have no body, so nothing can be proved of them. -/

namespace Sys2Proof

/-- `ELEM_ENDIAN`: the byte order of a 16- or 32-bit element inside a buffer (20_memory.md R52). -/
inductive Endian where
  | little
  | big
  deriving DecidableEq, Repr

/-- What the platform has at an address, as far as the engine's accesses go (20_memory.md R58, R59, R63). -/
inductive MemKind where
  /-- ordinary memory the engine may read and write -/
  | readWrite
  /-- ordinary memory the engine may only read -/
  | readOnly
  /-- ordinary memory the engine may only write -/
  | writeOnly
  /-- a location with read or write side effects, such as a device register (20_memory.md R58) -/
  | sideEffects
  deriving DecidableEq, Repr

/-- One entry of the platform's address map: the addresses `base .. base + size - 1`. -/
structure MapEntry where
  base : Nat
  size : Nat
  kind : MemKind
  deriving DecidableEq, Repr

/-- The parameters of 00_scope.md R8 and the platform's address map (20_memory.md R59, R63; notes/assumptions/8.md). -/
structure Config where
  /-- `POLY[8]`, `POLY[16]`, `POLY[32]`: bit i is the coefficient of x^i -/
  poly8 : Nat
  poly16 : Nat
  poly32 : Nat
  /-- `GEN[8]`, `GEN[16]`, `GEN[32]` -/
  gen8 : Nat
  gen16 : Nat
  gen32 : Nat
  /-- `ELEM_ENDIAN` -/
  elemEndian : Endian
  /-- `AW`, the width of an address and of `LEN` -/
  aw : Nat
  /-- `NPORTS` -/
  nports : Nat
  /-- what the platform lets the engine access -/
  map : List MapEntry
  deriving DecidableEq, Repr

/-- `POLY[w]`. -/
def Config.poly (c : Config) : Width → Nat
  | .w8 => c.poly8
  | .w16 => c.poly16
  | .w32 => c.poly32

/-- `GEN[w]`. -/
def Config.gen (c : Config) : Width → Nat
  | .w8 => c.gen8
  | .w16 => c.gen16
  | .w32 => c.gen32

/-- The legal values of `AW` and `NPORTS` (00_scope.md R8); the other parameters may be anything. -/
abbrev Config.Legal (c : Config) : Prop := 16 ≤ c.aw ∧ c.aw ≤ 64 ∧ 1 ≤ c.nports

/-- The defaults of 00_scope.md R8. The map is the model's own default: the whole address space is ordinary memory
(DESIGN CHOICE, notes/assumptions/8.md). -/
def Config.default : Config where
  poly8 := 0x11D
  poly16 := 0x1100B
  poly32 := 0x100400007
  gen8 := 2
  gen16 := 2
  gen32 := 2
  elemEndian := .little
  aw := 64
  nports := 1
  map := [{ base := 0, size := 2 ^ 64, kind := .readWrite }]

/-- FREE VALUE: what register `register` of port `port` holds after the reset number `draw`, which the spec calls *any
value* (10_state.md R37, R38; 93_implementation_defined.md U12; notes/assumptions/1.md). -/
opaque Config.freeRegister (draw port register : Nat) : BitVec 64

/-- FREE VALUE: what the byte at `address` of the destination of a command cut short by the reset number `draw` holds
(70_reset_and_hazards.md R191; 93_implementation_defined.md U14; notes/assumptions/2.md). -/
opaque Config.freeByte (draw address : Nat) : BitVec 8

end Sys2Proof
end

