-- ==== Sys2Proof/Machine/State.lean ====
section
/-! DEFINITION. The state of the machine as plain data (10_state.md R20, R21, R28, R30, R34, R37): the port registers and
`STATUS.ERR` of every port, the shared table state, the data memory, the commands in flight, and the host's own sequence of
actions with the values it has read. Also the reasons a step can stop, and the state after reset. -/

namespace Sys2Proof.Machine

/-- `STATUS.ERR` (10_state.md R28, 60_exceptions.md R170). Codes 6 and 7 are never produced, so the type has six values
(93_implementation_defined.md U17). -/
inductive ErrCode where
  | none
  | configurationError
  | divisionByZero
  | invalidLength
  | illegalCommand
  | badOperand
  deriving DecidableEq, Repr

/-- The registers of one port (10_state.md R21). `CMD` is not stored (R27). `STATUS` is `err` together with the shared
`BUILT` flags (R28). The address registers and `len` use the low `AW` bits (R25). -/
structure Port where
  /-- `STATUS.ERR` -/
  err : ErrCode
  /-- register 2, `EA` -/
  ea : Word
  /-- register 3, `EB` -/
  eb : Word
  /-- register 4, `ER` -/
  er : Word
  /-- register 5, `PA` -/
  pa : Addr
  /-- register 6, `PB` -/
  pb : Addr
  /-- register 7, `PD` -/
  pd : Addr
  /-- register 8, `LEN` -/
  len : Addr
  deriving DecidableEq, Repr

/-- A built table set of one width, held in the closed form of 40_field_tables.md R103: the polynomial and the generator it
was built from give every entry (10_state.md R30 lets a model hold the tables as functions and not as arrays; notes/assumptions/11.md). The entries are
`TableSet.antilog` and `TableSet.log` (Machine/Field.lean). -/
structure TableSet where
  poly : Nat
  gen : Nat
  deriving DecidableEq, Repr

/-- The table state shared by all ports (10_state.md R30): for each width the table set, present exactly when `BUILT[w] = 1`.
While `BUILT[w] = 0` the tables have no value and none is held (93_implementation_defined.md U13). -/
structure Tables where
  t8 : Option TableSet
  t16 : Option TableSet
  t32 : Option TableSet
  deriving DecidableEq, Repr

/-- Data memory (20_memory.md R50) as address and byte pairs in canonical form: addresses strictly rising, no entry equal to
what an unlisted address reads as (`Memory.wf`, Machine/Ops.lean). -/
structure Memory where
  cells : List Host.Cell
  deriving DecidableEq, Repr

/-- The region `[base, base + len)` of data memory (20_memory.md R50). -/
structure Range where
  base : Nat
  len : Nat
  deriving DecidableEq, Repr

/-- The regions a memory access or a command reads and writes (20_memory.md R56). -/
structure Footprint where
  reads : List Range
  writes : List Range
  deriving DecidableEq, Repr

/-- A command in flight (10_state.md R37, 70_reset_and_hazards.md R191): the port it runs on, its command word, and the
regions it touches. -/
structure Flight where
  port : Nat
  word : Word
  touches : Footprint
  deriving DecidableEq, Repr

/-- What happens at the engine's interface, one action at a time (30_encoding.md R88, 70_reset_and_hazards.md R190, R194).
`wr CMD` is the whole command. `start`, `build` and `finish` take a command of another host thread apart, so that commands on
several ports can run at the same time (60_exceptions.md R182): it begins, the table builder does its build, it completes
(notes/assumptions/14.md). -/
inductive HostAction where
  /-- `wr p, n, v` (10_state.md R21) -/
  | wr (p n v : Nat)
  /-- `rd p, n` (10_state.md R21) -/
  | rd (p n : Nat)
  /-- `st addr, b0 b1 ...` (30_encoding.md R88) -/
  | st (addr : Nat) (bytes : List Byte)
  /-- `ld addr, n` (30_encoding.md R88) -/
  | ld (addr n : Nat)
  /-- another thread's write of `c` to `CMD` of port `p` begins and does not return yet (70_reset_and_hazards.md R194) -/
  | start (p : Nat) (c : Word)
  /-- the table builder does the build of the command in flight on port `p` (40_field_tables.md R105) -/
  | build (p : Nat)
  /-- the command in flight on port `p` completes -/
  | finish (p : Nat)
  /-- the reset input (70_reset_and_hazards.md R190) -/
  | reset
  deriving DecidableEq, Repr

/-- A value the host has read: a register (zero-extended to 64 bits) or bytes of memory (30_encoding.md R88). -/
inductive HostValue where
  | register (v : BitVec 64)
  | bytes (bs : List Byte)
  deriving DecidableEq, Repr

/-- The machine. `cfg` holds the parameters and never changes (10_state.md R36). `cur`, `host`, `seen` and `draws` are the
model's own fields: the port on which a command executes, the host's remaining actions (10_state.md R26: the position in the
listed host sequence is host state), what the host has read (newest first), and the number of the next free value (notes/assumptions/13.md). -/
structure State where
  cfg : Config
  ports : List Port
  tables : Tables
  mem : Memory
  inFlight : List Flight
  cur : Nat
  host : List HostAction
  seen : List HostValue
  draws : Nat
  deriving DecidableEq, Repr

/-- The reasons the machine stops with a fault. -/
inductive Fault where
  /-- A host load or store (`ld`, `st`) reaches an address at or above `2^AW`, which does not exist (20_memory.md R50).
  Raised by `hostLoad` and `hostStore`; safe: nothing can be proved of what follows. -/
  | noSuchAddress
  deriving DecidableEq, Repr

/-- The reasons the spec gives a run no meaning (00_scope.md R18: *refused*). Each is safe: a refusal only makes claims
unprovable. -/
inductive Refusal where
  /-- An instruction that has no meaning in this model; raised by no arm of `exec` (safe). -/
  | notModelled (mnemonic : String)
  /-- A region runs past the top of the address space (20_memory.md R59); raised by the region commands (safe). -/
  | regionWraps
  /-- A region holds a byte the platform does not let the engine access (20_memory.md R59); raised by the region commands
  (safe). -/
  | regionNotAccessible
  /-- A region covers a location with side effects (20_memory.md R58); raised by the region commands (safe). -/
  | regionSideEffects
  /-- The destination partially overlaps a source (20_memory.md R62); raised by the region commands (safe). -/
  | partialOverlap
  /-- Two accesses that run at the same time conflict (20_memory.md R66); raised by `wr CMD`, `start`, `st` and `ld`
  (safe). -/
  | race
  /-- A host action names a register number above 8 (10_state.md R22); raised by `wr` and `rd` (safe). -/
  | noSuchRegister
  /-- A host write of a value wider than the register (10_state.md R23, 93_implementation_defined.md U11); raised by `wr`
  (safe). -/
  | valueTooWide
  /-- A host action names a port that does not exist (60_exceptions.md R182: ports are `0 .. NPORTS-1`); raised by `wr`,
  `rd` and `start` (safe, notes/assumptions/10.md). -/
  | noSuchPort
  /-- A host load or store reaches a location with side effects, whose behaviour the spec does not give (20_memory.md R58);
  raised by `ld` and `st` (safe, notes/assumptions/9.md). -/
  | hostReachesDevice
  deriving DecidableEq, Repr

/-- The outcome of a step or of a command. -/
abbrev Out := Host.Outcome State Fault Refusal

/-- The value of an `AW`-bit register after reset: a free value, cut to `AW` bits. -/
def freeAddr (c : Config) (draw port register : Nat) : Addr :=
  BitVec.ofNat 64 ((Config.freeRegister draw port register).toNat % 2 ^ c.aw)

/-- A port after the reset number `draw` (10_state.md R37): `STATUS.ERR` is 0, every other register is *any value*. -/
def Port.afterReset (c : Config) (draw port : Nat) : Port where
  err := .none
  ea := (Config.freeRegister draw port 2).setWidth 32
  eb := (Config.freeRegister draw port 3).setWidth 32
  er := (Config.freeRegister draw port 4).setWidth 32
  pa := freeAddr c draw port 5
  pb := freeAddr c draw port 6
  pd := freeAddr c draw port 7
  len := freeAddr c draw port 8

/-- The ports `0 .. NPORTS-1` after the reset number `draw` (60_exceptions.md R182). -/
def portsAfterReset (c : Config) (draw : Nat) : List Port :=
  (List.range c.nports).map (Port.afterReset c draw)

/-- The table state after reset: nothing is built (10_state.md R37). -/
def Tables.unbuilt : Tables := { t8 := none, t16 := none, t32 := none }

/-- The state of a machine with the parameters `c` right after its first reset (10_state.md R37): nothing built, no error, no
command in flight, no byte of memory listed, and no host action waiting: the engine executes nothing until the host writes
`CMD` (10_state.md R38). -/
def State.resetWith (c : Config) : State where
  cfg := c
  ports := portsAfterReset c 0
  tables := Tables.unbuilt
  mem := { cells := [] }
  inFlight := []
  cur := 0
  host := []
  seen := []
  draws := 1

/-- The machine right after reset, with the default parameters (00_scope.md R8). -/
def State.reset : State := State.resetWith Config.default

end Sys2Proof.Machine
end

