-- ==== Sys2Proof/Machine/Field.lean ====
section
/-! DEFINITION. Arithmetic in GF(2)[x]/(p(x)) (00_scope.md R13, R14), the validity of a pair of parameters and the table
build (40_field_tables.md R102, R106, R109), the entries of the tables (R103), and the products, quotients and inverses of
41_element_arithmetic.md. The machine computes with `pmul` and `fpow`, as 41_element_arithmetic.md R125 and
42_region_ops.md R151 allow; the table formulas and the derived tables stand beside them, to be proved equal. -/

namespace Sys2Proof.Machine

/-- `xtime_w` (00_scope.md R14): multiplication by x modulo the polynomial `p`. -/
def xtime (p : Nat) {n : Nat} (v : BitVec n) : BitVec n :=
  let s := v.toNat <<< 1
  if s.testBit n then BitVec.ofNat n (s ^^^ p) else BitVec.ofNat n s

/-- The loop of `pmul_w` (00_scope.md R14) over the bits `i, i + 1, ...` of `b`, `count` of them. -/
def pmulFrom (p : Nat) {n : Nat} (b : BitVec n) : (count i : Nat) → (r t : BitVec n) → BitVec n
  | 0, _, r, _ => r
  | k + 1, i, r, t => pmulFrom p b k (i + 1) (if b.getLsbD i then r ^^^ t else r) (xtime p t)

/-- `pmul_w` (00_scope.md R14): polynomial multiply-and-reduce modulo `p`. -/
def pmul (p : Nat) {n : Nat} (a b : BitVec n) : BitVec n := pmulFrom p b n 0 0#n a

/-- `ppow_w` (00_scope.md R14). -/
def ppow (p : Nat) {n : Nat} (a : BitVec n) : Nat → BitVec n
  | 0 => 1#n
  | e + 1 => pmul p (ppow p a e) a

/-- The loop of `fpow`: `acc` times `base` to the power of the `count` low bits of `e`. -/
def fpowFrom (p : Nat) {n : Nat} : (count : Nat) → (base : BitVec n) → (e : Nat) → (acc : BitVec n) → BitVec n
  | 0, _, _, acc => acc
  | k + 1, base, e, acc =>
    fpowFrom p k (pmul p base base) (e / 2) (if e % 2 = 1 then pmul p acc base else acc)

/-- `ppow_w` by squaring, for exponents below `2^n`; it can be evaluated at w = 32. -/
def fpow (p : Nat) {n : Nat} (a : BitVec n) (e : Nat) : BitVec n := fpowFrom p n a e 1#n

/-- The prime divisors of `N_w` (40_field_tables.md R109). -/
def primesOfOrder : Width → List Nat
  | .w8 => [3, 5, 17]
  | .w16 => [3, 5, 17, 257]
  | .w32 => [3, 5, 17, 257, 65537]

/-- The degree and range conditions of 00_scope.md R9: bit w of the polynomial is 1 and no higher bit is set, and the
generator has w bits. -/
def paramsInRange (w : Width) (poly gen : Nat) : Bool :=
  poly.testBit w.bits && poly >>> (w.bits + 1) == 0 && decide (gen < 2 ^ w.bits)

/-- Whether the build of width `w` succeeds, by the test of 40_field_tables.md R109, which does not walk the group. -/
def buildOk (w : Width) (poly gen : Nat) : Bool :=
  let g : Elem w := BitVec.ofNat w.bits gen
  paramsInRange w poly gen && fpow poly g w.order == 1#w.bits &&
    (primesOfOrder w).all fun q => fpow poly g (w.order / q) != 1#w.bits

/-- The walk of `build(w)` (40_field_tables.md R102) from the value `v`, `count` steps to go, with the entries of
`ANTILOG[w]` written so far, the last one first: `none` when the walk closes early or reaches 0. -/
def buildWalkFrom (poly : Nat) {n : Nat} (g : BitVec n) :
    (count : Nat) → (v : BitVec n) → (done : List (BitVec n)) → Option (List (BitVec n))
  | 0, _, done => some done.reverse
  | k + 1, v, done =>
    if v = 0#n ∨ v ∈ done then none else buildWalkFrom poly g k (pmul poly v g) (v :: done)

/-- `build(w)` as 40_field_tables.md R102 writes it: the antilog table, or failure. The machine uses the equivalent test
`buildOk`, since the walk cannot be evaluated at w = 32 (R109). -/
def buildWalk (w : Width) (poly gen : Nat) : Option (List (Elem w)) :=
  if paramsInRange w poly gen then
    buildWalkFrom poly (BitVec.ofNat w.bits gen : Elem w) w.order 1#w.bits []
  else none

/-- `ANTILOG[w][i]` (40_field_tables.md R103). -/
def TableSet.antilog (ts : TableSet) (w : Width) (i : Nat) : Elem w :=
  ppow ts.poly (BitVec.ofNat w.bits ts.gen) i

/-- The search for the logarithm of `a` among the exponents `i, i + 1, ...`, `count` of them, where `v` is `g^i`. -/
def logFrom (poly : Nat) {n : Nat} (g a : BitVec n) : (count i : Nat) → (v : BitVec n) → Nat
  | 0, i, _ => i
  | k + 1, i, v => if v = a then i else logFrom poly g a k (i + 1) (pmul poly v g)

/-- `LOG[w][a]` (40_field_tables.md R103): the exponent below `N_w` whose power is `a`; `LOG[w][0] = 2^w - 1` is the sentinel
of R111, which nothing in the machine reads. -/
def TableSet.log (ts : TableSet) (w : Width) (a : Elem w) : Nat :=
  if a = 0#w.bits then w.order
  else logFrom ts.poly (BitVec.ofNat w.bits ts.gen) a w.order 0 1#w.bits

/-- The product of two elements (41_element_arithmetic.md R121, R125; notes/assumptions/12.md): 0 without a table lookup when
either is 0. -/
def gfMul (w : Width) (ts : TableSet) (a b : Elem w) : Elem w :=
  if a = 0#w.bits ∨ b = 0#w.bits then 0#w.bits else pmul ts.poly a b

/-- The inverse of a nonzero element (41_element_arithmetic.md R123), as `ppow_w(a, N_w - 1)` (R125). -/
def gfInv (w : Width) (ts : TableSet) (a : Elem w) : Elem w := fpow ts.poly a (w.order - 1)

/-- The quotient by a nonzero element (41_element_arithmetic.md R122): `0 / b` is 0 (90_conflicts.md C1), else
`multiply(a, inverse(b))` (R128). -/
def gfDiv (w : Width) (ts : TableSet) (a b : Elem w) : Elem w :=
  if a = 0#w.bits then 0#w.bits else pmul ts.poly a (gfInv w ts b)

/-- `MULTAB8[a][b]`, the full multiplication table of width 8 (41_element_arithmetic.md R126). -/
def TableSet.multab8 (ts : TableSet) (a b : Elem .w8) : Elem .w8 := pmul ts.poly a b

/-- `SPLIT_w[c][k][x]` (42_region_ops.md R150): the product of `c` with the element whose byte k is `x`. -/
def TableSet.split (ts : TableSet) (w : Width) (c : Elem w) (k : Nat) (x : Byte) : Elem w :=
  pmul ts.poly c (x.setWidth w.bits <<< (8 * k))

/-- Byte k of an element's integer value (42_region_ops.md R150). -/
def elemByte {w : Width} (e : Elem w) (k : Nat) : Byte := (e >>> (8 * k)).setWidth 8

/-- `gfmul_split_w(c, e)` (42_region_ops.md R150): the XOR of the partial products of the bytes of `e`. -/
def gfMulSplit (w : Width) (ts : TableSet) (c e : Elem w) : Elem w :=
  (List.range w.bytes).foldl (fun r k => r ^^^ ts.split w c k (elemByte e k)) 0#w.bits

end Sys2Proof.Machine
end

