-- ==== Sys2Proof/Machine/Flags.lean ====
section
/-! DEFINITION. The status flags (10_state.md R28, R29): the codes of `STATUS.ERR` and the `STATUS` word. The engine has no
other flag: no carry, overflow, zero or condition code. -/

namespace Sys2Proof.Machine

/-- The code numbers of 60_exceptions.md R170. -/
def ErrCode.code : ErrCode → BitVec 3
  | .none => 0
  | .configurationError => 1
  | .divisionByZero => 2
  | .invalidLength => 3
  | .illegalCommand => 4
  | .badOperand => 5

/-- The table set of a width, if it is built. -/
def Tables.get (t : Tables) : Width → Option TableSet
  | .w8 => t.t8
  | .w16 => t.t16
  | .w32 => t.t32

/-- `BUILT[w]` (10_state.md R30). -/
def State.built (s : State) (w : Width) : Bool := (s.tables.get w).isSome

/-- The `STATUS` word of a port with error code `e` (10_state.md R28): `ERR` in bits 2:0, the `BUILT` flags of the widths 8,
16 and 32 in bits 8, 9 and 10, all other bits 0. -/
def State.statusWord (s : State) (e : ErrCode) : Word :=
  0#21 ++ BitVec.ofBool (s.built .w32) ++ BitVec.ofBool (s.built .w16) ++ BitVec.ofBool (s.built .w8) ++ 0#5 ++ e.code

end Sys2Proof.Machine
end

