-- ==== Sys2Proof/Machine/Ops.lean ====
section
/-! DEFINITION. The named operations over memory, registers and tables: byte and element accesses (20_memory.md R50 to R53),
the executing port, the table primitive `get_tables` (40_field_tables.md R104), raising an error (00_scope.md R17,
60_exceptions.md R177) and completing a command (10_state.md R24, R29). The engine has no return from an error
(60_exceptions.md R178). -/

namespace Sys2Proof.Machine

/-- What a byte of data memory that nothing has written reads as (DESIGN CHOICE, notes/assumptions/3.md). -/
def Memory.unlisted : Byte := 0#8

/-- The byte listed at an address, in a list with rising addresses. -/
def readCells : List Host.Cell → Nat → Byte
  | [], _ => Memory.unlisted
  | (a, v) :: cs, x => if x < a then Memory.unlisted else if x = a then v else readCells cs x

/-- The list with the byte `v` at the address `x`; an unlisted value is not listed. -/
def writeCells : List Host.Cell → Nat → Byte → List Host.Cell
  | [], x, v => if v = Memory.unlisted then [] else [(x, v)]
  | (a, u) :: cs, x, v =>
    if x < a then if v = Memory.unlisted then (a, u) :: cs else (x, v) :: (a, u) :: cs
    else if x = a then if v = Memory.unlisted then cs else (x, v) :: cs
    else (a, u) :: writeCells cs x v

/-- `MemRead(addr, 1)` (00_scope.md R16). -/
def Memory.read (m : Memory) (addr : Nat) : Byte := readCells m.cells addr

/-- `MemWrite(addr, 1, v)` (00_scope.md R16). -/
def Memory.write (m : Memory) (addr : Nat) (v : Byte) : Memory := { cells := writeCells m.cells addr v }

/-- The canonical form of memory: addresses strictly rising, no entry equal to what an unlisted address reads as. -/
abbrev Memory.wf (m : Memory) : Prop :=
  m.cells.Pairwise (fun c d => c.1 < d.1) ∧ ∀ c ∈ m.cells, c.2 ≠ Memory.unlisted

/-- Writes bytes at ascending addresses from `addr` (30_encoding.md R88, `st`). -/
def Memory.writeBytes (m : Memory) (addr : Nat) : List Byte → Memory
  | [] => m
  | b :: bs => (m.write addr b).writeBytes (addr + 1) bs

/-- The `n` bytes at ascending addresses from `addr` (30_encoding.md R88, `ld`). -/
def Memory.readBytes (m : Memory) (addr n : Nat) : List Byte := (List.range n).map fun k => m.read (addr + k)

/-- Which byte of the element's integer value lies at the byte offset `k` (20_memory.md R52, R53): byte `k` with `little`,
byte `n - 1 - k` with `big`. -/
def byteIndex (en : Endian) (n k : Nat) : Nat :=
  match en with
  | .little => k
  | .big => n - 1 - k

/-- `MemRead(addr, B_w)` (20_memory.md R53). -/
def Memory.readElem (m : Memory) (en : Endian) (w : Width) (addr : Nat) : Elem w :=
  (List.range w.bytes).foldl
    (fun v k => v ^^^ ((m.read (addr + k)).setWidth w.bits <<< (8 * byteIndex en w.bytes k))) 0#w.bits

/-- `MemWrite(addr, B_w, v)` (20_memory.md R53). -/
def Memory.writeElem (m : Memory) (en : Endian) (w : Width) (addr : Nat) (v : Elem w) : Memory :=
  (List.range w.bytes).foldl (fun m k => m.write (addr + k) (elemByte v (byteIndex en w.bytes k))) m

/-- The registers of port `p`. A port that does not exist reads as the free values of no reset; in a well-formed state
(`State.Wf`, Safety.lean) no port of that kind is ever read (notes/assumptions/23.md). -/
def State.portAt (s : State) (p : Nat) : Port := s.ports.getD p (Port.afterReset s.cfg 0 p)

/-- The registers of the executing port (00_scope.md R15, `x[n]`). -/
def State.port (s : State) : Port := s.portAt s.cur

/-- Changes the registers of port `p` and of no other (10_state.md R22). -/
def State.modifyPortAt (s : State) (p : Nat) (f : Port → Port) : State := { s with ports := s.ports.modify p f }

/-- `STATUS.ERR <- e` on the executing port (10_state.md R29). -/
def State.setErr (s : State) (e : ErrCode) : State := s.modifyPortAt s.cur fun p => { p with err := e }

/-- `raise <Kind>` (00_scope.md R17, 60_exceptions.md R177): the code goes to `STATUS.ERR` of the executing port and the command
completes; nothing else changes, and control goes nowhere. -/
def State.raise (s : State) (e : ErrCode) : State := s.setErr e

/-- Normal completion of a command that delivers no element (10_state.md R24, R29). -/
def State.complete (s : State) : State := s.setErr .none

/-- Normal completion with a result: `x[ER] <- zext_32(r) ; STATUS.ERR <- 0` (10_state.md R24). -/
def State.deliver (s : State) {w : Width} (r : Elem w) : State :=
  s.modifyPortAt s.cur fun p => { p with er := r.setWidth 32, err := .none }

/-- The tables with a table set for the width `w`. -/
def Tables.set (t : Tables) (w : Width) (ts : TableSet) : Tables :=
  match w with
  | .w8 => { t with t8 := some ts }
  | .w16 => { t with t16 := some ts }
  | .w32 => { t with t32 := some ts }

/-- `get_tables(w)` (40_field_tables.md R104, R105): the table set of the width, built now if it was not, in one atomic step;
`none` when the build fails, which writes no state (R106). -/
def State.getTables (s : State) (w : Width) : Option (TableSet × State) :=
  match s.tables.get w with
  | some ts => some (ts, s)
  | none =>
    if buildOk w (s.cfg.poly w) (s.cfg.gen w) then
      let ts : TableSet := { poly := s.cfg.poly w, gen := s.cfg.gen w }
      some (ts, { s with tables := s.tables.set w ts })
    else none

end Sys2Proof.Machine
end

