-- ==== Sys2Proof/Machine/Operands.lean ====
section
/-! DEFINITION. The operand forms of the commands (30_encoding.md R85): element operands with their range check
(60_exceptions.md R175), the byte length and its check (42_region_ops.md R143), and the regions of the region commands with
their preconditions (42_region_ops.md R140: 20_memory.md R58, R59, R62). -/

namespace Sys2Proof.Machine

/-- An element operand fits the width: `v < 2^w` (60_exceptions.md R175). -/
def fits (w : Width) (v : Word) : Bool := decide (v.toNat < 2 ^ w.bits)

/-- The element an operand register holds, once it is known to fit (30_encoding.md R85). -/
def elem (w : Width) (v : Word) : Elem w := v.setWidth w.bits

/-- `LEN mod B_w = 0` (42_region_ops.md R143). -/
def wholeElements (w : Width) (len : Addr) : Bool := len.toNat % w.bytes == 0

/-- The region `a` of `region_xor`, `src` of `region_multiply`. -/
def Port.rangeA (p : Port) : Range := { base := p.pa.toNat, len := p.len.toNat }

/-- The region `b` of `region_xor`. -/
def Port.rangeB (p : Port) : Range := { base := p.pb.toNat, len := p.len.toNat }

/-- The region `dst`. -/
def Port.rangeD (p : Port) : Range := { base := p.pd.toNat, len := p.len.toNat }

/-- What a command does with a region. -/
inductive Access where
  | reads
  | writes
  | readsAndWrites
  deriving DecidableEq, Repr

/-- What the platform has at an address: the first entry of the map that holds it (20_memory.md R59, R63). -/
def kindAt (c : Config) (a : Nat) : Option MemKind :=
  (c.map.find? fun e => decide (e.base ≤ a ∧ a < e.base + e.size)).map MapEntry.kind

/-- Ordinary memory of this kind allows the access (20_memory.md R59). -/
def kindAllows : MemKind → Access → Bool
  | .readWrite, _ => true
  | .readOnly, .reads => true
  | .writeOnly, .writes => true
  | _, _ => false

/-- The engine may make the access at an address. -/
def addressAllows (c : Config) (acc : Access) (a : Nat) : Bool :=
  match kindAt c a with
  | some k => kindAllows k acc
  | none => false

/-- Some byte of the region has side effects (20_memory.md R58). -/
def Range.coversDevice (r : Range) (c : Config) : Bool :=
  (List.range r.len).any fun i => kindAt c (r.base + i) == some MemKind.sideEffects

/-- Every byte of the region allows the access (20_memory.md R59). -/
def Range.accessible (r : Range) (c : Config) (acc : Access) : Bool :=
  (List.range r.len).all fun i => addressAllows c acc (r.base + i)

/-- The region ends at or below the top of the address space (20_memory.md R59). -/
def Range.inSpace (r : Range) (c : Config) : Bool := decide (r.base + r.len ≤ 2 ^ c.aw)

/-- Why the spec refuses an access to a region, if it does (20_memory.md R58, R59). -/
def regionProblem (c : Config) (acc : Access) (r : Range) : Option Refusal :=
  if !r.inSpace c then some .regionWraps
  else if r.coversDevice c then some .regionSideEffects
  else if !r.accessible c acc then some .regionNotAccessible
  else none

/-- Two regions have a byte in common. -/
def Range.meets (r q : Range) : Bool :=
  decide (0 < r.len ∧ 0 < q.len ∧ r.base < q.base + q.len ∧ q.base < r.base + r.len)

/-- The destination partially overlaps a source: they intersect and their bases differ (20_memory.md R62). -/
def partlyOverlaps (dst src : Range) : Bool := dst.meets src && dst.base != src.base

/-- Why the spec refuses a `region_xor` with these registers, if it does (42_region_ops.md R140, R141). -/
def xorProblem (c : Config) (p : Port) : Option Refusal :=
  ((regionProblem c .reads p.rangeA).or (regionProblem c .reads p.rangeB)).or
    ((regionProblem c .writes p.rangeD).or
      (if partlyOverlaps p.rangeD p.rangeA || partlyOverlaps p.rangeD p.rangeB then some .partialOverlap else none))

/-- What `region_multiply` does with its destination (20_memory.md R56): with `ACC = 1` it reads it too. -/
def dstAccess (acc : Bool) : Access := if acc then .readsAndWrites else .writes

/-- Why the spec refuses a `region_multiply` with these registers, if it does (42_region_ops.md R140). With constant 0 the
source is not read: it need not be accessible and may overlap the destination (R146; notes/assumptions/18.md, 19.md). -/
def multiplyProblem (c : Config) (p : Port) (acc : Bool) : Option Refusal :=
  if p.ea = 0#32 then regionProblem c .writes p.rangeD
  else
    (regionProblem c .reads p.rangeA).or
      ((regionProblem c (dstAccess acc) p.rangeD).or
        (if partlyOverlaps p.rangeD p.rangeA then some .partialOverlap else none))

end Sys2Proof.Machine
end

