-- ==== Sys2Proof/Machine/ElementArithmetic.lean ====
section
/-! DEFINITION. The commands of the ElementArithmetic component (41_element_arithmetic.md): `multiply`, `divide`, `inverse`.
Each is one atomic step (R120), makes its checks in the order of 60_exceptions.md R176, and accesses no data memory. -/

namespace Sys2Proof.Machine

/-- `multiply.w` (41_element_arithmetic.md R121). -/
def execMultiply (wc : WidthCode) (s : State) : Out :=
  .next <|
    match wc with
    | .unsupported => s.raise .configurationError
    | .supported w =>
      let a := s.port.ea
      let b := s.port.eb
      if !(fits w a && fits w b) then s.raise .badOperand
      else
        match s.getTables w with
        | none => s.raise .configurationError
        | some (ts, t) => t.deliver (gfMul w ts (elem w a) (elem w b))

/-- `divide.w` (41_element_arithmetic.md R122); the test for a zero divisor is on `EB` alone and comes before the build. -/
def execDivide (wc : WidthCode) (s : State) : Out :=
  .next <|
    match wc with
    | .unsupported => s.raise .configurationError
    | .supported w =>
      let a := s.port.ea
      let b := s.port.eb
      if !(fits w a && fits w b) then s.raise .badOperand
      else if b = 0#32 then s.raise .divisionByZero
      else
        match s.getTables w with
        | none => s.raise .configurationError
        | some (ts, t) => t.deliver (gfDiv w ts (elem w a) (elem w b))

/-- `inverse.w` (41_element_arithmetic.md R123); `EB` is not read. -/
def execInverse (wc : WidthCode) (s : State) : Out :=
  .next <|
    match wc with
    | .unsupported => s.raise .configurationError
    | .supported w =>
      let a := s.port.ea
      if !fits w a then s.raise .badOperand
      else if a = 0#32 then s.raise .divisionByZero
      else
        match s.getTables w with
        | none => s.raise .configurationError
        | some (ts, t) => t.deliver (gfInv w ts (elem w a))

end Sys2Proof.Machine
end

