-- ==== Sys2Proof/Machine/FieldTables.lean ====
section
/-! DEFINITION. The command of the FieldTables component (40_field_tables.md): `init_field`. -/

namespace Sys2Proof.Machine

/-- `init_field.w` (40_field_tables.md R110), steps 2 and 5 of 60_exceptions.md R176: an unsupported width or a failing build
raises ConfigurationError; otherwise the tables of the width are built if they were not. It reads no register. -/
def execInitField (wc : WidthCode) (s : State) : Out :=
  .next <|
    match wc with
    | .unsupported => s.raise .configurationError
    | .supported w =>
      match s.getTables w with
      | none => s.raise .configurationError
      | some (_, t) => t.complete

end Sys2Proof.Machine
end

