-- ==== Sys2Proof/Machine/RegionOps.lean ====
section
/-! DEFINITION. The commands of the RegionOps component (42_region_ops.md): `region_xor` and `region_multiply`. A command that
the spec gives a meaning is one atomic step (20_memory.md R67) made of byte or element accesses in any order of the positions
(20_memory.md R60); the machine takes them in ascending order (notes/assumptions/20.md). A command that breaks a precondition on its regions is refused
(42_region_ops.md R140). -/

namespace Sys2Proof.Machine

/-- Position `i` of `region_xor` (42_region_ops.md R141): both bytes are read before the destination byte is written. -/
def xorPosition (a b d : Nat) (m : Memory) (i : Nat) : Memory :=
  m.write (d + i) (m.read (a + i) ^^^ m.read (b + i))

/-- The positions of `region_xor` in the order of the list (20_memory.md R60). -/
def xorPositions (a b d : Nat) (m : Memory) (order : List Nat) : Memory := order.foldl (xorPosition a b d) m

/-- `region_xor` (42_region_ops.md R141). -/
def execRegionXor (s : State) : Out :=
  match xorProblem s.cfg s.port with
  | some r => .refused r
  | none =>
    let p := s.port
    let m := xorPositions p.pa.toNat p.pb.toNat p.pd.toNat s.mem (List.range p.len.toNat)
    .next { s with mem := m }.complete

/-- Byte `i` of the destination of `region_multiply` with constant 0 and `ACC = 0` (42_region_ops.md R146). -/
def clearPosition (d : Nat) (m : Memory) (i : Nat) : Memory := m.write (d + i) 0x00#8

/-- Element `j` of `region_multiply` with a nonzero constant (42_region_ops.md R142, R145, R147, R148): the source element, and
with `ACC = 1` the destination element, are read before the destination element is written. -/
def scalePosition (en : Endian) (w : Width) (ts : TableSet) (c : Elem w) (acc : Bool) (a d : Nat) (m : Memory) (j : Nat) :
    Memory :=
  let e := m.readElem en w (a + j * w.bytes)
  let p := if c = 1#w.bits then e else gfMul w ts c e
  let q := if acc then p ^^^ m.readElem en w (d + j * w.bytes) else p
  m.writeElem en w (d + j * w.bytes) q

/-- The elements of `region_multiply` in the order of the list (20_memory.md R60). -/
def scalePositions (en : Endian) (w : Width) (ts : TableSet) (c : Elem w) (acc : Bool) (a d : Nat) (m : Memory)
    (order : List Nat) : Memory :=
  order.foldl (scalePosition en w ts c acc a d) m

/-- The memory after step 6 of `region_multiply` (42_region_ops.md R142). -/
def scaledMemory (en : Endian) (w : Width) (ts : TableSet) (acc : Bool) (p : Port) (m : Memory) : Memory :=
  let n := p.len.toNat
  if p.ea = 0#32 then
    if acc then m else (List.range n).foldl (clearPosition p.pd.toNat) m
  else
    scalePositions en w ts (elem w p.ea) acc p.pa.toNat p.pd.toNat m (List.range (n / w.bytes))

/-- `region_multiply.w` and `region_multiply.w.acc` (42_region_ops.md R142). The checks of 60_exceptions.md R176 come first; a
command that raises an error accesses no memory, so its regions are not looked at (notes/assumptions/6.md). -/
def execRegionMultiply (wc : WidthCode) (acc : Bool) (s : State) : Out :=
  match wc with
  | .unsupported => .next (s.raise .configurationError)
  | .supported w =>
    if !fits w s.port.ea then .next (s.raise .badOperand)
    else if !wholeElements w s.port.len then .next (s.raise .invalidLength)
    else
      match s.getTables w with
      | none => .next (s.raise .configurationError)
      | some (ts, t) =>
        match multiplyProblem s.cfg s.port acc with
        | some r => .refused r
        | none => .next { t with mem := scaledMemory s.cfg.elemEndian w ts acc s.port s.mem }.complete

end Sys2Proof.Machine
end

