-- ==== Sys2Proof/Machine/Dispatch.lean ====
section
/-! DEFINITION. One arm per command (30_encoding.md R83). -/

namespace Sys2Proof.Machine

/-- What a decoded command does on the executing port. -/
def exec (i : Instr) (s : State) : Host.Outcome State Fault Refusal :=
  match i with
  | .initField w => Sys2Proof.Machine.execInitField w s
  | .multiply w => Sys2Proof.Machine.execMultiply w s
  | .divide w => Sys2Proof.Machine.execDivide w s
  | .inverse w => Sys2Proof.Machine.execInverse w s
  | .regionXor => Sys2Proof.Machine.execRegionXor s
  | .regionMultiply w acc => Sys2Proof.Machine.execRegionMultiply w acc s

end Sys2Proof.Machine
end

