-- ==== Sys2Proof/Machine/HostPort.lean ====
section
/-! DEFINITION. The host interface: the actions `wr`, `rd`, `st`, `ld` (10_state.md R21 to R28, 30_encoding.md R88), commands
that run at the same time on several ports (20_memory.md R64 to R67, 60_exceptions.md R182), the hold of 70_reset_and_hazards.md
R194, and reset (R190, R191). -/

namespace Sys2Proof.Machine

/-- The width in bits of register `n` of a port (10_state.md R21); registers 9 and above do not exist (R22). -/
def registerWidth (c : Config) (n : Nat) : Option Nat :=
  if n ≤ 4 then some 32 else if n ≤ 8 then some c.aw else none

/-- The value `rd p, n` reads, zero-extended (10_state.md R21): `CMD` reads 0 (R27), `STATUS` is the word of R28. -/
def readRegister (s : State) (p n : Nat) : Option (BitVec 64) :=
  let r := s.portAt p
  match n with
  | 0 => some 0#64
  | 1 => some ((s.statusWord r.err).setWidth 64)
  | 2 => some (r.ea.setWidth 64)
  | 3 => some (r.eb.setWidth 64)
  | 4 => some (r.er.setWidth 64)
  | 5 => some r.pa
  | 6 => some r.pb
  | 7 => some r.pd
  | 8 => some r.len
  | _ => none

/-- A host write of a value that fits to an operand register; writes to `STATUS` and `ER` are ignored (10_state.md R21, R28). -/
def writeOperand (n v : Nat) (p : Port) : Port :=
  match n with
  | 2 => { p with ea := BitVec.ofNat 32 v }
  | 3 => { p with eb := BitVec.ofNat 32 v }
  | 5 => { p with pa := BitVec.ofNat 64 v }
  | 6 => { p with pb := BitVec.ofNat 64 v }
  | 7 => { p with pd := BitVec.ofNat 64 v }
  | 8 => { p with len := BitVec.ofNat 64 v }
  | _ => p

/-- The command word `c` runs on the executing port, from step 1 of 60_exceptions.md R176 on: an illegal word raises
IllegalCommand (30_encoding.md R86), any other is its command. -/
def runWord (c : Word) (s : State) : Out :=
  match decodeWord c with
  | .error _ => .next (s.raise .illegalCommand)
  | .ok i => exec i s

/-- The regions a command that runs step 6 accesses (20_memory.md R56). -/
def regionsOf (i : Instr) (p : Port) : Footprint :=
  match i with
  | .regionXor => { reads := [p.rangeA, p.rangeB], writes := [p.rangeD] }
  | .regionMultiply _ acc =>
    if p.ea = 0#32 then { reads := [], writes := if acc then [] else [p.rangeD] }
    else { reads := if acc then [p.rangeA, p.rangeD] else [p.rangeA], writes := [p.rangeD] }
  | .initField _ | .multiply _ | .divide _ | .inverse _ => { reads := [], writes := [] }

/-- The regions the command word `c` accesses when it runs on the executing port: none if it ends in an error
(60_exceptions.md R177). -/
def touches (c : Word) (s : State) : Footprint :=
  match decodeWord c, runWord c s with
  | .ok i, .next t => if t.port.err = .none then regionsOf i s.port else { reads := [], writes := [] }
  | _, _ => { reads := [], writes := [] }

/-- Two sets of regions conflict: one writes a byte the other reads or writes (20_memory.md R66). -/
def Footprint.conflicts (f g : Footprint) : Bool :=
  (f.writes.any fun r => (g.reads ++ g.writes).any r.meets) || (g.writes.any fun r => (f.reads ++ f.writes).any r.meets)

/-- The source and destination regions a command has by its operands (30_encoding.md R85), accessed or not. -/
def namedRegions (i : Instr) (p : Port) : Footprint :=
  match i with
  | .regionXor => { reads := [p.rangeA, p.rangeB], writes := [p.rangeD] }
  | .regionMultiply _ _ => { reads := [p.rangeA], writes := [p.rangeD] }
  | .initField _ | .multiply _ | .divide _ | .inverse _ => { reads := [], writes := [] }

/-- The source and destination regions the command word `c` has on a port with the registers `p`; an illegal word has none. -/
def namedOf (c : Word) (p : Port) : Footprint :=
  match decodeWord c with
  | .ok i => namedRegions i p
  | .error _ => { reads := [], writes := [] }

/-- The source and destination regions of a command in flight, whatever it does with them. The registers of its port are those it
began with (70_reset_and_hazards.md R194). -/
def State.namedBy (s : State) (f : Flight) : Footprint := namedOf f.word (s.portAt f.port)

/-- Two commands that run at the same time race, one with the regions `n` and the accesses `a`, the other with `m` and `b`: one
accesses the other's destination region or writes a source region of it (70_reset_and_hazards.md R195 (a), 20_memory.md R66), or
their destination regions meet (93_implementation_defined.md U2; notes/assumptions/25.md). -/
def commandsRace (n a m b : Footprint) : Bool :=
  n.conflicts b || a.conflicts m || n.writes.any fun r => m.writes.any r.meets

/-- The command word `c` on the executing port races with a command in flight. -/
def State.races (s : State) (c : Word) : Bool :=
  s.inFlight.any fun g => commandsRace (s.namedBy g) g.touches (namedOf c s.port) (touches c s)

/-- A host access to memory conflicts with a command in flight: it touches a byte of the command's destination region, or writes a
byte of one of its source regions (20_memory.md R66, 70_reset_and_hazards.md R195 (a)). -/
def State.hostRaces (s : State) (f : Footprint) : Bool := s.inFlight.any fun g => (s.namedBy g).conflicts f

/-- The command in flight on port `p`. -/
def State.flightOn (s : State) (p : Nat) : Option Flight := s.inFlight.find? fun f => f.port == p

/-- The state without the command in flight on port `p`, with `p` as the executing port. -/
def State.landed (s : State) (p : Nat) : State :=
  { s with inFlight := s.inFlight.filter fun f => f.port != p, cur := p }

/-- The command in flight on port `p`, if any, completes: one atomic step (20_memory.md R67). -/
def finishOn (p : Nat) (s : State) : Out :=
  match s.flightOn p with
  | none => .next s
  | some f => runWord f.word (s.landed p)

/-- A host write to `CMD` of port `p` (10_state.md R27): the whole command, refused if it conflicts with a command in flight
on another port (20_memory.md R66). -/
def writeCommand (p : Nat) (c : Word) (s : State) : Out :=
  let t := { s with cur := p }
  if t.races c then .refused .race else runWord c t

/-- `wr p, n, v` (10_state.md R21, R22, R23; notes/assumptions/21.md). -/
def hostWrite (p n v : Nat) (s : State) : Out :=
  if s.ports.length ≤ p then .refused .noSuchPort
  else
    match registerWidth s.cfg n with
    | none => .refused .noSuchRegister
    | some width =>
      if 2 ^ width ≤ v then .refused .valueTooWide
      else if n = 0 then writeCommand p (BitVec.ofNat 32 v) s
      else .next (s.modifyPortAt p (writeOperand n v))

/-- `rd p, n` (10_state.md R21, R22): the host has read the value. -/
def hostRead (p n : Nat) (s : State) : Out :=
  if s.ports.length ≤ p then .refused .noSuchPort
  else
    match readRegister s p n with
    | none => .refused .noSuchRegister
    | some v => .next { s with seen := .register v :: s.seen }

/-- Why a host access to data memory stops, if it does: an address that does not exist, a location with side effects, a
conflict with a command in flight (20_memory.md R50, R58, R66). -/
def hostAccess (r : Range) (f : Footprint) (s : State) (done : State) : Out :=
  if !r.inSpace s.cfg then .fault .noSuchAddress
  else if r.coversDevice s.cfg then .refused .hostReachesDevice
  else if s.hostRaces f then .refused .race
  else .next done

/-- `st addr, b0 b1 ...` (30_encoding.md R88). -/
def hostStore (addr : Nat) (bytes : List Byte) (s : State) : Out :=
  let r : Range := { base := addr, len := bytes.length }
  hostAccess r { reads := [], writes := [r] } s { s with mem := s.mem.writeBytes addr bytes }

/-- `ld addr, n` (30_encoding.md R88). -/
def hostLoad (addr n : Nat) (s : State) : Out :=
  let r : Range := { base := addr, len := n }
  hostAccess r { reads := [r], writes := [] } s { s with seen := .bytes (s.mem.readBytes addr n) :: s.seen }

/-- Another thread's write of `c` to `CMD` of port `p` begins (70_reset_and_hazards.md R194). A command the spec refuses is
refused here: one that breaks a precondition (42_region_ops.md R140) or conflicts with a command in flight (20_memory.md R66;
notes/assumptions/15.md). -/
def startOn (p : Nat) (c : Word) (s : State) : Out :=
  let t := { s with cur := p }
  if s.ports.length ≤ p then .refused .noSuchPort
  else if t.races c then .refused .race
  else
    match runWord c t with
    | .next _ => .next { s with inFlight := s.inFlight ++ [{ port := p, word := c, touches := touches c t }] }
    | .fault r => .fault r
    | .refused r => .refused r

/-- The table builder does the build of the command in flight on port `p`, if it needs one (40_field_tables.md R104, R105): the
table state becomes what the command leaves, before the command completes (notes/assumptions/16.md). -/
def buildOn (p : Nat) (s : State) : Out :=
  match s.flightOn p with
  | none => .next s
  | some f =>
    match runWord f.word (s.landed p) with
    | .next t => .next { s with tables := t.tables }
    | .fault r => .fault r
    | .refused r => .refused r

/-- Every byte of a region takes a free value (70_reset_and_hazards.md R191). -/
def freeRegion (draw : Nat) (m : Memory) (r : Range) : Memory :=
  (List.range r.len).foldl (fun m i => m.write (r.base + i) (Config.freeByte draw (r.base + i))) m

/-- The part of a region that lies in the address space. -/
def Range.clip (r : Range) (c : Config) : Range := { r with len := min r.len (2 ^ c.aw - r.base) }

/-- The destination region of a command in flight, as far as it exists, whatever the command does with it: also one that would
write none of it, or end in an error, has one (70_reset_and_hazards.md R191). -/
def State.destinationsOf (s : State) (f : Flight) : List Range := (s.namedBy f).writes.map fun r => r.clip s.cfg

/-- Memory after the reset number `draw` has cut short commands with the destination regions `rs`: every byte of them holds *any
value*, every other byte is untouched (10_state.md R37, 70_reset_and_hazards.md R191, 93_implementation_defined.md U14). -/
def memAfterReset (draw : Nat) (m : Memory) (rs : List Range) : Memory := rs.foldl (freeRegion draw) m

/-- The reset input (70_reset_and_hazards.md R190, R191): all ports and the table state at once
(notes/assumptions/22.md). -/
def hostReset (s : State) : Out :=
  .next
    { s with
      ports := portsAfterReset s.cfg s.draws
      tables := Tables.unbuilt
      mem := memAfterReset s.draws s.mem (s.inFlight.flatMap s.destinationsOf)
      inFlight := []
      cur := 0
      draws := s.draws + 1 }

/-- The port whose registers a host access reaches: the accesses that are held while a command runs on it
(70_reset_and_hazards.md R194). -/
def HostAction.heldPort? : HostAction → Option Nat
  | .wr p _ _ => some p
  | .rd p _ => some p
  | .start p _ => some p
  | .st _ _ | .ld _ _ | .build _ | .finish _ | .reset => none

/-- The host action is held: a command is in flight on the port it reaches (70_reset_and_hazards.md R194). -/
def State.holding? (s : State) (a : HostAction) : Option Nat :=
  match a.heldPort? with
  | some p => if (s.flightOn p).isSome then some p else none
  | none => none

/-- One host action that is not held. -/
def perform (a : HostAction) (s : State) : Out :=
  match a with
  | .wr p n v => hostWrite p n v s
  | .rd p n => hostRead p n s
  | .st addr bytes => hostStore addr bytes s
  | .ld addr n => hostLoad addr n s
  | .start p c => startOn p c s
  | .build p => buildOn p s
  | .finish p => finishOn p s
  | .reset => hostReset s

/-- With no host action waiting the host does nothing more, but a command that has begun keeps being scheduled until it completes
(20_memory.md R69, 70_reset_and_hazards.md R196): the one that began first completes. With no command in flight the engine is idle
(10_state.md R38; notes/assumptions/13.md, 14.md). -/
def withoutHost (s : State) : Out :=
  match s.inFlight with
  | [] => .next s
  | f :: _ => finishOn f.port s

/-- The host's next action: a held one waits while the command in flight on its port completes (70_reset_and_hazards.md R194);
any other is taken from the sequence and performed (notes/assumptions/17.md). -/
def nextAction (a : HostAction) (rest : List HostAction) (s : State) : Out :=
  match s.holding? a with
  | some p => finishOn p s
  | none => perform a { s with host := rest }

end Sys2Proof.Machine
end

