-- ==== Sys2Proof/Machine/Step.lean ====
section
/-! DEFINITION. One step of the machine: the host's next action (10_state.md R26: the engine has no program counter; the host
sequence plays its part). With no action waiting, the commands in flight complete one after the other, and then the engine is
idle (10_state.md R38, 60_exceptions.md R182, 70_reset_and_hazards.md R196). -/

namespace Sys2Proof.Machine

/-- One step. -/
def step (s : State) : Host.Outcome State Fault Refusal :=
  match s.host with
  | [] => withoutHost s
  | a :: rest => nextAction a rest s

/-- The state with the command word `w` (its bits from `nbits` up are 0) as the next thing the host does: `wr 0, CMD, w`, with
no command in flight that could hold it (10_state.md R27; notes/assumptions/4.md). -/
def State.withFetchWord (s : State) (nbits w : Nat) : State :=
  { s with host := .wr 0 0 (w % 2 ^ nbits) :: s.host, inFlight := [] }

end Sys2Proof.Machine
end

