-- ==== Sys2Proof/Machine/Calls.lean ====
section
/-! DEFINITION. The function calls of the source's external interface as host sequences (30_encoding.md R88, R89): the operands
are written, the command word is written to `CMD`, then `STATUS` is read, and `ER` after it where the call returns an element
(notes/assumptions/24.md). -/

namespace Sys2Proof.Machine

/-- The six calls with their arguments in the source's order (30_encoding.md R89); the width comes first. -/
inductive SourceCall where
  | initField (w : WidthCode)
  | multiply (w : WidthCode) (a b : Nat)
  | divide (w : WidthCode) (a b : Nat)
  | inverse (w : WidthCode) (a : Nat)
  | regionXor (a b dst len : Nat)
  | regionMultiply (w : WidthCode) (src constant len dst : Nat) (accumulate : Bool)
  deriving DecidableEq, Repr

/-- A mnemonic on port `p` (30_encoding.md R88): the write of its command word to `CMD`. -/
def issue (p : Nat) (i : Instr) : HostAction := .wr p 0 (encode i).toNat

/-- The expansion of a call on port `p` (30_encoding.md R89). -/
def SourceCall.expand (p : Nat) : SourceCall → List HostAction
  | .initField w => [issue p (.initField w), .rd p 1]
  | .multiply w a b => [.wr p 2 a, .wr p 3 b, issue p (.multiply w), .rd p 1, .rd p 4]
  | .divide w a b => [.wr p 2 a, .wr p 3 b, issue p (.divide w), .rd p 1, .rd p 4]
  | .inverse w a => [.wr p 2 a, issue p (.inverse w), .rd p 1, .rd p 4]
  | .regionXor a b dst len => [.wr p 5 a, .wr p 6 b, .wr p 7 dst, .wr p 8 len, issue p .regionXor, .rd p 1]
  | .regionMultiply w src constant len dst accumulate =>
    [.wr p 5 src, .wr p 2 constant, .wr p 8 len, .wr p 7 dst, issue p (.regionMultiply w accumulate), .rd p 1]

end Sys2Proof.Machine
end

