-- ==== Sys2Proof/Safety.lean ====
section
/-! DEFINITION. The terms the statements use, written from the spec's rules and not from the machine's own definitions: valid
parameter pairs (00_scope.md R9), illegal and legal command words (30_encoding.md R84, R86, R87), the order of the checks
(60_exceptions.md R176), the preconditions on regions (20_memory.md R59, R62), the state that differs only in `STATUS.ERR`
(60_exceptions.md R177), several steps in a row, and the well-formed states, an invariant of every run. -/

namespace Sys2Proof.Machine

/-- A valid pair of parameters (00_scope.md R9): the polynomial has degree exactly w, the generator has w bits, and its first
`2^w - 1` powers are pairwise distinct and none is 0. -/
def ValidPair (w : Width) (poly gen : Nat) : Prop :=
  poly.testBit w.bits = true ∧ poly < 2 ^ (w.bits + 1) ∧ gen < 2 ^ w.bits ∧
    (∀ i, i < w.order → ppow poly (BitVec.ofNat w.bits gen) i ≠ 0#w.bits) ∧
    ∀ i j, i < j → j < w.order → ppow poly (BitVec.ofNat w.bits gen) i ≠ ppow poly (BitVec.ofNat w.bits gen) j

/-- The illegal command words (30_encoding.md R86), by arithmetic on the word's value. -/
def IllegalWord (c : Word) : Prop :=
  c.toNat % 16 = 0 ∨ 7 ≤ c.toNat % 16 ∨ c.toNat / 128 ≠ 0 ∨ (c.toNat / 64 % 2 = 1 ∧ c.toNat % 16 ≠ 6) ∨
    (c.toNat % 16 = 5 ∧ c.toNat / 16 % 4 ≠ 0)

/-- The 19 legal command words (30_encoding.md R84). -/
def legalWords : List Word :=
  [0x01, 0x11, 0x21, 0x02, 0x12, 0x22, 0x03, 0x13, 0x23, 0x04, 0x14, 0x24, 0x05, 0x06, 0x16, 0x26, 0x46, 0x56, 0x66]

/-- The 6 words with the width code `0b11` that are not illegal (30_encoding.md R87). -/
def unsupportedWords : List Word := [0x31, 0x32, 0x33, 0x34, 0x36, 0x76]

/-- The state with another `STATUS.ERR` on the executing port and nothing else changed (60_exceptions.md R177). -/
def State.onlyErr (s : State) (e : ErrCode) : State :=
  { s with ports := s.ports.modify s.cur fun p => { p with err := e } }

/-- The table set of the width `w` for the parameters of the machine (40_field_tables.md R103). -/
def State.fieldOf (s : State) (w : Width) : TableSet := { poly := s.cfg.poly w, gen := s.cfg.gen w }

/-- The table formula of `multiply` (41_element_arithmetic.md R121). -/
def tableMul (w : Width) (ts : TableSet) (a b : Elem w) : Elem w :=
  if a = 0#w.bits ∨ b = 0#w.bits then 0#w.bits else ts.antilog w ((ts.log w a + ts.log w b) % w.order)

/-- The table formula of `divide` (41_element_arithmetic.md R122), the difference formed as R124 says. -/
def tableDiv (w : Width) (ts : TableSet) (a b : Elem w) : Elem w :=
  if a = 0#w.bits then 0#w.bits else ts.antilog w ((ts.log w a + w.order - ts.log w b) % w.order)

/-- The table formula of `inverse` (41_element_arithmetic.md R123). -/
def tableInv (w : Width) (ts : TableSet) (a : Elem w) : Elem w :=
  ts.antilog w ((w.order - ts.log w a) % w.order)

/-- The state after an element command has delivered `r` (10_state.md R24): `ER` and `STATUS.ERR` of the executing port and the
tables of the width are written, nothing else. -/
def State.delivered (s : State) (w : Width) (r : Elem w) : State :=
  { s with
    ports := s.ports.modify s.cur fun p => { p with er := r.setWidth 32, err := .none }
    tables := s.tables.set w (s.fieldOf w) }

/-- The tables once the width `w` is built from the parameters (40_field_tables.md R104, R107). -/
def State.tablesWith (s : State) (w : Width) : Tables :=
  s.tables.set w (s.fieldOf w)

/-- The element operands a command reads (60_exceptions.md R175). -/
def elementOperands (i : Instr) (p : Port) : List Word :=
  match i with
  | .multiply _ | .divide _ => [p.ea, p.eb]
  | .inverse _ | .regionMultiply _ _ => [p.ea]
  | .initField _ | .regionXor => []

/-- Step 4 of 60_exceptions.md R176 at the width `w`. -/
def operandValueError (i : Instr) (w : Width) (p : Port) : Option ErrCode :=
  match i with
  | .divide _ => if p.eb = 0#32 then some .divisionByZero else none
  | .inverse _ => if p.ea = 0#32 then some .divisionByZero else none
  | .regionMultiply _ _ => if p.len.toNat % w.bytes ≠ 0 then some .invalidLength else none
  | .initField _ | .multiply _ | .regionXor => none

/-- The first error of a decoded command, in the fixed order of 60_exceptions.md R176, steps 2 to 5. -/
def firstError (i : Instr) (s : State) : Option ErrCode :=
  match i.widthCode? with
  | none => none
  | some .unsupported => some .configurationError
  | some (.supported w) =>
    if (elementOperands i s.port).any (fun v => decide (2 ^ w.bits ≤ v.toNat)) then some .badOperand
    else
      match operandValueError i w s.port with
      | some e => some e
      | none =>
        if !s.built w && !buildOk w (s.cfg.poly w) (s.cfg.gen w) then some .configurationError else none

/-- An address lies in a region. -/
def Range.contains (r : Range) (x : Nat) : Prop := r.base ≤ x ∧ x < r.base + r.len

/-- A region is valid for an access (20_memory.md R58, R59): it does not wrap, and every byte of it is ordinary memory that the
platform lets the engine access so. -/
def RegionOk (c : Config) (acc : Access) (r : Range) : Prop :=
  r.base + r.len ≤ 2 ^ c.aw ∧ ∀ x, r.contains x → ∃ k, kindAt c x = some k ∧ kindAllows k acc = true

/-- The host may access a region of memory: it exists, and no byte of it has side effects (20_memory.md R50, R58; the map limits the
engine's accesses only, notes/assumptions/9.md). -/
def HostRegionOk (c : Config) (r : Range) : Prop :=
  r.base + r.len ≤ 2 ^ c.aw ∧ ∀ x, r.contains x → kindAt c x ≠ some .sideEffects

/-- The destination does not partially overlap a source (20_memory.md R62): the bases are equal or no byte is shared. -/
def NoPartialOverlap (dst src : Range) : Prop :=
  dst.base = src.base ∨ ∀ x, ¬ (dst.contains x ∧ src.contains x)

/-- The preconditions of `region_xor` (42_region_ops.md R140). -/
def XorRegionsOk (s : State) : Prop :=
  RegionOk s.cfg .reads s.port.rangeA ∧ RegionOk s.cfg .reads s.port.rangeB ∧ RegionOk s.cfg .writes s.port.rangeD ∧
    NoPartialOverlap s.port.rangeD s.port.rangeA ∧ NoPartialOverlap s.port.rangeD s.port.rangeB

/-- The preconditions of `region_multiply` (42_region_ops.md R140): with constant 0 there is none on the source (R146); with
`ACC = 1` and another constant the destination is read too. -/
def MultiplyRegionsOk (s : State) (acc : Bool) : Prop :=
  (s.port.ea = 0#32 ∧ RegionOk s.cfg .writes s.port.rangeD) ∨
    (s.port.ea ≠ 0#32 ∧ RegionOk s.cfg .reads s.port.rangeA ∧
      RegionOk s.cfg (if acc then .readsAndWrites else .writes) s.port.rangeD ∧
      NoPartialOverlap s.port.rangeD s.port.rangeA)

/-- Two sets of regions conflict (20_memory.md R66): one writes a byte that the other reads or writes. -/
def Conflict (f g : Footprint) : Prop :=
  ∃ x, (∃ r ∈ f.writes, r.contains x) ∧ (∃ q ∈ g.reads ++ g.writes, q.contains x) ∨
    (∃ r ∈ g.writes, r.contains x) ∧ (∃ q ∈ f.reads ++ f.writes, q.contains x)

/-- The word `c` is a region command, and a byte of its destination region `[PD, PD+LEN)` on the registers `p` meets `P`. -/
def DestinationHas (c : Word) (p : Port) (P : Nat → Prop) : Prop :=
  (decodeWord c = .ok .regionXor ∨ ∃ w acc, decodeWord c = .ok (.regionMultiply w acc)) ∧ ∃ x, p.rangeD.contains x ∧ P x

/-- The word `c` is a region command, and a byte of one of its source regions on the registers `p` meets `P`: `[PA, PA+LEN)`, for
`region_xor` also `[PB, PB+LEN)`. -/
def SourceHas (c : Word) (p : Port) (P : Nat → Prop) : Prop :=
  (decodeWord c = .ok .regionXor ∧ ∃ x, (p.rangeA.contains x ∨ p.rangeB.contains x) ∧ P x) ∨
    (∃ w acc, decodeWord c = .ok (.regionMultiply w acc)) ∧ ∃ x, p.rangeA.contains x ∧ P x

/-- A byte of the destination region of a command in flight meets `P`. -/
def Flight.destinationHas (f : Flight) (s : State) (P : Nat → Prop) : Prop := DestinationHas f.word (s.portAt f.port) P

/-- A byte of a source region of a command in flight meets `P`. -/
def Flight.sourceHas (f : Flight) (s : State) (P : Nat → Prop) : Prop := SourceHas f.word (s.portAt f.port) P

/-- An address is read or written. -/
def Footprint.accesses (a : Footprint) (x : Nat) : Prop := ∃ r ∈ a.reads ++ a.writes, r.contains x

/-- An address is written. -/
def Footprint.stores (a : Footprint) (x : Nat) : Prop := ∃ r ∈ a.writes, r.contains x

/-- The command in flight races with the command word `c` on the executing port (70_reset_and_hazards.md R195 (a), 20_memory.md R66,
93_implementation_defined.md U2): one of the two accesses a byte of the other's destination region or writes a byte of a source
region of it, or their destination regions have a byte in common. -/
def Flight.Races (f : Flight) (s : State) (c : Word) : Prop :=
  f.destinationHas s (Machine.touches c s).accesses ∨ f.sourceHas s (Machine.touches c s).stores ∨
    DestinationHas c s.port f.touches.accesses ∨ SourceHas c s.port f.touches.stores ∨
    f.destinationHas s fun x => DestinationHas c s.port fun y => y = x

/-- `n` steps in a row, or the stop that ends them. -/
def runSteps : Nat → State → Out
  | 0, s => .next s
  | n + 1, s =>
    match step s with
    | .next t => runSteps n t
    | .fault f => .fault f
    | .refused r => .refused r

/-- The address registers and `LEN` of a port hold `AW`-bit values (10_state.md R25). -/
def Port.InBounds (p : Port) (aw : Nat) : Prop :=
  p.pa.toNat < 2 ^ aw ∧ p.pb.toNat < 2 ^ aw ∧ p.pd.toNat < 2 ^ aw ∧ p.len.toNat < 2 ^ aw

/-- The well-formed states: legal parameters (00_scope.md R8); `NPORTS` ports with `AW`-bit registers (10_state.md R25,
60_exceptions.md R182); memory in canonical form and inside the address space (20_memory.md R50); every built table set the one
of the parameters, whose build succeeds (10_state.md R33, 40_field_tables.md R103, R106); at most one command in flight per
port (70_reset_and_hazards.md R194), with its destination inside the address space (20_memory.md R59). -/
structure State.Wf (s : State) : Prop where
  legal : s.cfg.Legal
  ports : s.ports.length = s.cfg.nports
  cur : s.cur < s.cfg.nports
  regs : ∀ p ∈ s.ports, p.InBounds s.cfg.aw
  mem : s.mem.wf
  space : ∀ c ∈ s.mem.cells, c.1 < 2 ^ s.cfg.aw
  tables : ∀ w ts, s.tables.get w = some ts →
    ts = { poly := s.cfg.poly w, gen := s.cfg.gen w } ∧ buildOk w (s.cfg.poly w) (s.cfg.gen w) = true
  flights : ∀ f ∈ s.inFlight, f.port < s.cfg.nports ∧ ∀ r ∈ f.touches.writes, r.base + r.len ≤ 2 ^ s.cfg.aw
  oneEach : s.inFlight.Pairwise fun f g => f.port ≠ g.port

end Sys2Proof.Machine
end

