-- ==== Sys2Proof/Certificates/Slice0/Obligations.lean ====
section
/-! DEFINITION. The statements for the provers. Each docstring names the rule of spec/ it comes from. A statement about a
command holds for every state that meets its premises; `State.Wf` is the invariant of `Obligations.StepKeepsStatesWellFormed`.
No statement rests on a free value or on what unlisted memory reads as. -/

open Sys2Proof Sys2Proof.Machine

/-! ### Encoding -/

/-- Decoding and encoding agree on every 32-bit word and every command, the width code `0b11` included (30_encoding.md R81 to
R84, R87): no bit of a word is dropped. -/
def Obligations.DecodeAndEncodeAgree : Prop :=
  ∀ (c : Word) (i : Instr), decodeWord c = .ok i ↔ encode i = c

/-- 30_encoding.md R87: every word falls in exactly one of three classes: the 19 legal words, the 6 words that raise
ConfigurationError, and the rest, which raise IllegalCommand. -/
def Obligations.EveryWordFallsInOneClass : Prop :=
  ∀ c : Word,
    (c ∈ legalWords ∧ c ∉ unsupportedWords ∧ ∃ i, decodeWord c = .ok i ∧ i.WellFormed) ∨
    (c ∉ legalWords ∧ c ∈ unsupportedWords ∧ (∃ i, decodeWord c = .ok i ∧ ¬ i.WellFormed) ∧
      ∀ s, runWord c s = .next (s.onlyErr .configurationError)) ∨
    (c ∉ legalWords ∧ c ∉ unsupportedWords ∧ (∃ r, decodeWord c = .error r) ∧
      ∀ s, runWord c s = .next (s.onlyErr .illegalCommand))

/-- 30_encoding.md R86: an illegal word raises IllegalCommand and changes nothing but `STATUS.ERR`; a word that is not illegal
is a command, and one with `W = 0b11` raises ConfigurationError. -/
def Obligations.IllegalWordsRaiseIllegalCommand : Prop :=
  ∀ (c : Word) (s : State),
    (IllegalWord c → runWord c s = .next (s.onlyErr .illegalCommand)) ∧
    (¬ IllegalWord c → ∃ i, decodeWord c = .ok i ∧ runWord c s = exec i s) ∧
    (¬ IllegalWord c → c.toNat / 16 % 4 = 3 → runWord c s = .next (s.onlyErr .configurationError)) ∧
    ErrCode.illegalCommand.code = 4#3

/-- Words written out from 30_encoding.md R84 and 95_test_vectors.md section 2.9, one or two for each command. -/
def Obligations.SampleWordsDecode : Prop :=
  decodeWord 0b00000000000000000000000000100001#32 = .ok (.initField (.supported .w32)) ∧
  decodeWord 0b00000000000000000000000000000010#32 = .ok (.multiply (.supported .w8)) ∧
  decodeWord 0b00000000000000000000000000100011#32 = .ok (.divide (.supported .w32)) ∧
  decodeWord 0b00000000000000000000000000010100#32 = .ok (.inverse (.supported .w16)) ∧
  decodeWord 0b00000000000000000000000000000101#32 = .ok .regionXor ∧
  decodeWord 0b00000000000000000000000001010110#32 = .ok (.regionMultiply (.supported .w16) true) ∧
  decodeWord 0b00000000000000000000000000100110#32 = .ok (.regionMultiply (.supported .w32) false) ∧
  decodeWord 0b00000000000000000000000000110010#32 = .ok (.multiply .unsupported)

/-! ### A step -/

/-- A step runs the decoded command (10_state.md R27): a host write of the word `c` to `CMD` of an idle port `p`, which races with
no command in flight, is `exec` of the command `c` decodes to, with `p` as the executing port and the action taken from
the host's sequence; an illegal word raises IllegalCommand there. -/
def Obligations.StepRunsTheCommandWritten : Prop :=
  ∀ (s : State) (p : Nat) (c : Word) (rest : List HostAction),
    s.host = .wr p 0 c.toNat :: rest → p < s.ports.length → (∀ f ∈ s.inFlight, f.port ≠ p) →
    (∀ f ∈ s.inFlight, ¬ f.Races { s with host := rest, cur := p } c) →
    (∀ i, decodeWord c = .ok i → step s = exec i { s with host := rest, cur := p }) ∧
    (∀ r, decodeWord c = .error r → step s = .next (State.onlyErr { s with host := rest, cur := p } .illegalCommand))

/-- The word that `withFetchWord` places is the next command run (the model's own loading, notes/assumptions/4.md). -/
def Obligations.PlacedWordIsRunNext : Prop :=
  ∀ (s : State) (w : Nat) (i : Instr), 0 < s.ports.length → w < 2 ^ 32 → decodeTableWord 32 w = some i →
    step (s.withFetchWord 32 w) = exec i { s with inFlight := [], cur := 0 }

/-- With no host action waiting and no command in flight the engine executes nothing (10_state.md R38, 30_encoding.md R90). With
commands in flight a step completes the one that began first: that they complete is 70_reset_and_hazards.md R196; that such a step
is one of the machine's, and takes them in the order in which they began, is the model's choice (notes/assumptions/13.md, 14.md,
DESIGN CHOICE). -/
def Obligations.IdleWithoutHostAction : Prop :=
  ∀ s : State, s.host = [] →
    (s.inFlight = [] → step s = .next s) ∧
    ∀ f fs, s.inFlight = f :: fs →
      step s = runWord f.word { s with inFlight := s.inFlight.filter (fun g => g.port != f.port), cur := f.port }

/-- The width code `0b11` raises ConfigurationError on every width-carrying command and changes nothing else, whatever the
operands hold (30_encoding.md R82, 60_exceptions.md R171 (a)). -/
def Obligations.UnsupportedWidthRaisesConfigurationError : Prop :=
  ∀ (s : State) (acc : Bool),
    exec (.initField .unsupported) s = .next (s.onlyErr .configurationError) ∧
    exec (.multiply .unsupported) s = .next (s.onlyErr .configurationError) ∧
    exec (.divide .unsupported) s = .next (s.onlyErr .configurationError) ∧
    exec (.inverse .unsupported) s = .next (s.onlyErr .configurationError) ∧
    exec (.regionMultiply .unsupported acc) s = .next (s.onlyErr .configurationError)

/-! ### The tables -/

/-- `init_field.w` (40_field_tables.md R110): when the build of the width succeeds, the command completes normally, the tables of
the width are those of the parameters, and nothing else changes: no register, no memory, no other width. -/
def Obligations.InitFieldBuildsTheTables : Prop :=
  ∀ (s : State) (w : Width), s.Wf → buildOk w (s.cfg.poly w) (s.cfg.gen w) = true →
    exec (.initField (.supported w)) s = .next { s.onlyErr .none with tables := s.tablesWith w }

/-- A failing build (40_field_tables.md R106, 60_exceptions.md R171 (b)): every command of the width that reaches step 5 raises
ConfigurationError and changes nothing else, whatever its operands. That this also holds of a `region_multiply` whose regions are
not valid is the model's reading (notes/assumptions/6.md, DEDUCED). -/
def Obligations.FailedBuildRaisesConfigurationError : Prop :=
  ∀ (s : State) (w : Width) (acc : Bool),
    s.built w = false → buildOk w (s.cfg.poly w) (s.cfg.gen w) = false →
    exec (.initField (.supported w)) s = .next (s.onlyErr .configurationError) ∧
    (s.port.ea.toNat < 2 ^ w.bits →
      (s.port.eb.toNat < 2 ^ w.bits →
        exec (.multiply (.supported w)) s = .next (s.onlyErr .configurationError) ∧
        (s.port.eb ≠ 0#32 → exec (.divide (.supported w)) s = .next (s.onlyErr .configurationError))) ∧
      (s.port.ea ≠ 0#32 → exec (.inverse (.supported w)) s = .next (s.onlyErr .configurationError)) ∧
      (s.port.len.toNat % w.bytes = 0 →
        exec (.regionMultiply (.supported w) acc) s = .next (s.onlyErr .configurationError)))

/-- Once built, the tables of a width stay as they are through every step but a reset (10_state.md R33, 70_reset_and_hazards.md
R190). -/
def Obligations.TablesLastUntilReset : Prop :=
  ∀ (s t : State) (w : Width) (ts : TableSet),
    step s = .next t → s.tables.get w = some ts → (∀ rest, s.host ≠ .reset :: rest) → t.tables.get w = some ts

/-- The build succeeds exactly for the valid pairs of 00_scope.md R9 (40_field_tables.md R106). -/
def Obligations.BuildSucceedsExactlyWhenValid : Prop :=
  ∀ (w : Width) (poly gen : Nat), buildOk w poly gen = true ↔ ValidPair w poly gen

/-- 40_field_tables.md R109: the order test is equivalent to validity, and the factorisations of the group orders. -/
def Obligations.OrderTestIsValidity : Prop :=
  (Width.order .w8 = 3 * 5 * 17 ∧ Width.order .w16 = 3 * 5 * 17 * 257 ∧ Width.order .w32 = 3 * 5 * 17 * 257 * 65537) ∧
  (∀ q ∈ [3, 5, 17, 257, 65537], Nat.Prime q) ∧
  ∀ (w : Width) (poly gen : Nat),
    poly.testBit w.bits = true → poly < 2 ^ (w.bits + 1) → gen < 2 ^ w.bits →
    (ValidPair w poly gen ↔
      ppow poly (BitVec.ofNat w.bits gen) w.order = 1#w.bits ∧
      ∀ q, q.Prime → q ∣ w.order → ppow poly (BitVec.ofNat w.bits gen) (w.order / q) ≠ 1#w.bits)

/-- The walk of 40_field_tables.md R102 succeeds exactly for the valid pairs, and then the antilog table it writes holds the
powers of the generator in order (R103). -/
def Obligations.WalkFillsTheAntilogTable : Prop :=
  ∀ (w : Width) (poly gen : Nat) (table : List (Elem w)),
    buildWalk w poly gen = some table ↔
      ValidPair w poly gen ∧ table = (List.range w.order).map fun i => ppow poly (BitVec.ofNat w.bits gen) i

/-- 40_field_tables.md R103: what the tables of a built width hold, the sentinel included. -/
def Obligations.BuiltTablesAreInverse : Prop :=
  ∀ (s : State) (w : Width) (ts : TableSet), s.Wf → s.tables.get w = some ts →
    (∀ i, i < w.order → ts.antilog w i = ppow (s.cfg.poly w) (BitVec.ofNat w.bits (s.cfg.gen w)) i) ∧
    (∀ a : Elem w, a ≠ 0#w.bits → ts.log w a < w.order ∧ ts.antilog w (ts.log w a) = a ∧
      ∀ i, i < w.order → ts.antilog w i = a → i = ts.log w a) ∧
    (∀ i, i < w.order → ts.log w (ts.antilog w i) = i) ∧
    ts.log w 0#w.bits = 2 ^ w.bits - 1 ∧ ts.antilog w 0 = 1#w.bits ∧ ts.log w 1#w.bits = 0 ∧
    ts.antilog w 1 = BitVec.ofNat w.bits (s.cfg.gen w) ∧ ts.log w (BitVec.ofNat w.bits (s.cfg.gen w)) = 1

/-- The default pairs of 00_scope.md R8 build (R10). -/
def Obligations.DefaultPairsBuild : Prop :=
  ∀ w : Width, buildOk w (Config.default.poly w) (Config.default.gen w) = true

/-- What a successful build proves (40_field_tables.md R108): the generator is primitive and the ring is a field. -/
def Obligations.BuildYieldsAField : Prop :=
  ∀ (w : Width) (poly gen : Nat), buildOk w poly gen = true →
    ppow poly (BitVec.ofNat w.bits gen) w.order = 1#w.bits ∧
    (∀ a : Elem w, a ≠ 0#w.bits → ∃ i, i < w.order ∧ ppow poly (BitVec.ofNat w.bits gen) i = a) ∧
    (∀ a b : Elem w, pmul poly a b = pmul poly b a) ∧
    (∀ a b c : Elem w, pmul poly a (pmul poly b c) = pmul poly (pmul poly a b) c) ∧
    (∀ a b c : Elem w, pmul poly a (b ^^^ c) = pmul poly a b ^^^ pmul poly a c) ∧
    (∀ a : Elem w, pmul poly a 1#w.bits = a) ∧
    ∀ a : Elem w, a ≠ 0#w.bits → ∃ r, pmul poly a r = 1#w.bits

/-! ### Element arithmetic -/

/-- `multiply.w` (41_element_arithmetic.md R121): BadOperand, ConfigurationError, or the result of the table formula in `ER`, with
the width built and nothing else changed. -/
def Obligations.MultiplyDeliversTheTableFormula : Prop :=
  ∀ (s : State) (w : Width), s.Wf →
    (2 ^ w.bits ≤ s.port.ea.toNat ∨ 2 ^ w.bits ≤ s.port.eb.toNat →
      exec (.multiply (.supported w)) s = .next (s.onlyErr .badOperand)) ∧
    (s.port.ea.toNat < 2 ^ w.bits → s.port.eb.toNat < 2 ^ w.bits →
      (buildOk w (s.cfg.poly w) (s.cfg.gen w) = false →
        exec (.multiply (.supported w)) s = .next (s.onlyErr .configurationError)) ∧
      (buildOk w (s.cfg.poly w) (s.cfg.gen w) = true →
        exec (.multiply (.supported w)) s = .next (s.delivered w
          (tableMul w (s.fieldOf w) (s.port.ea.setWidth w.bits) (s.port.eb.setWidth w.bits)))))

/-- `divide.w` (41_element_arithmetic.md R122): BadOperand, DivisionByZero (on `EB` alone), ConfigurationError, or the result of
the table formula in `ER`, with the width built and nothing else changed. -/
def Obligations.DivideDeliversTheTableFormula : Prop :=
  ∀ (s : State) (w : Width), s.Wf →
    (2 ^ w.bits ≤ s.port.ea.toNat ∨ 2 ^ w.bits ≤ s.port.eb.toNat →
      exec (.divide (.supported w)) s = .next (s.onlyErr .badOperand)) ∧
    (s.port.ea.toNat < 2 ^ w.bits → s.port.eb.toNat < 2 ^ w.bits →
      (s.port.eb = 0#32 → exec (.divide (.supported w)) s = .next (s.onlyErr .divisionByZero)) ∧
      (s.port.eb ≠ 0#32 → buildOk w (s.cfg.poly w) (s.cfg.gen w) = false →
        exec (.divide (.supported w)) s = .next (s.onlyErr .configurationError)) ∧
      (s.port.eb ≠ 0#32 → buildOk w (s.cfg.poly w) (s.cfg.gen w) = true →
        exec (.divide (.supported w)) s = .next (s.delivered w
          (tableDiv w (s.fieldOf w) (s.port.ea.setWidth w.bits) (s.port.eb.setWidth w.bits)))))

/-- `inverse.w` (41_element_arithmetic.md R123): BadOperand, DivisionByZero, ConfigurationError, or the result of the table
formula in `ER`, with the width built and nothing else changed, whatever `EB` holds. -/
def Obligations.InverseDeliversTheTableFormula : Prop :=
  ∀ (s : State) (w : Width), s.Wf →
    (2 ^ w.bits ≤ s.port.ea.toNat → exec (.inverse (.supported w)) s = .next (s.onlyErr .badOperand)) ∧
    (s.port.ea.toNat < 2 ^ w.bits →
      (s.port.ea = 0#32 → exec (.inverse (.supported w)) s = .next (s.onlyErr .divisionByZero)) ∧
      (s.port.ea ≠ 0#32 → buildOk w (s.cfg.poly w) (s.cfg.gen w) = false →
        exec (.inverse (.supported w)) s = .next (s.onlyErr .configurationError)) ∧
      (s.port.ea ≠ 0#32 → buildOk w (s.cfg.poly w) (s.cfg.gen w) = true →
        exec (.inverse (.supported w)) s = .next (s.delivered w
          (tableInv w (s.fieldOf w) (s.port.ea.setWidth w.bits)))))

/-- 41_element_arithmetic.md R125: on a built width the table formulas compute the polynomial product, the one quotient and the
one inverse. -/
def Obligations.TableFormulasComputeTheProduct : Prop :=
  ∀ (s : State) (w : Width) (ts : TableSet), s.Wf → s.tables.get w = some ts →
    (∀ a b : Elem w, tableMul w ts a b = pmul (s.cfg.poly w) a b) ∧
    (∀ a b : Elem w, b ≠ 0#w.bits → pmul (s.cfg.poly w) (tableDiv w ts a b) b = a ∧
      ∀ r, pmul (s.cfg.poly w) r b = a → r = tableDiv w ts a b) ∧
    ∀ a : Elem w, a ≠ 0#w.bits → pmul (s.cfg.poly w) a (tableInv w ts a) = 1#w.bits ∧
      ∀ r, pmul (s.cfg.poly w) a r = 1#w.bits → r = tableInv w ts a

/-- 41_element_arithmetic.md R127: the laws the source states, of the products, quotients and inverses the commands compute with,
for every pair of parameters that passes the order test of 40_field_tables.md R109. -/
def Obligations.FieldLawsHold : Prop :=
  ∀ (w : Width) (ts : TableSet), buildOk w ts.poly ts.gen = true →
    (∀ a b : Elem w, gfMul w ts a b = gfMul w ts b a) ∧
    (∀ a b c : Elem w, gfMul w ts a (gfMul w ts b c) = gfMul w ts (gfMul w ts a b) c) ∧
    (∀ a : Elem w, a ≠ 0#w.bits → gfMul w ts a (gfInv w ts a) = 1#w.bits) ∧
    (∀ a : Elem w, gfMul w ts a 0#w.bits = 0#w.bits ∧ gfMul w ts a 1#w.bits = a) ∧
    ∀ a b : Elem w, b ≠ 0#w.bits → gfMul w ts (gfDiv w ts a b) b = a

/-- 41_element_arithmetic.md R128: distributivity, no zero divisors, division as multiplication by the inverse, the inverse of
an inverse, and scaling by a nonzero constant as a bijection. -/
def Obligations.FurtherFieldLawsHold : Prop :=
  ∀ (w : Width) (ts : TableSet), buildOk w ts.poly ts.gen = true →
    (∀ c a b : Elem w, pmul ts.poly c (a ^^^ b) = pmul ts.poly c a ^^^ pmul ts.poly c b) ∧
    (∀ a b : Elem w, pmul ts.poly a b = 0#w.bits → a = 0#w.bits ∨ b = 0#w.bits) ∧
    (∀ a b : Elem w, b ≠ 0#w.bits → gfDiv w ts a b = gfMul w ts a (gfInv w ts b)) ∧
    (∀ a : Elem w, a ≠ 0#w.bits → gfInv w ts (gfInv w ts a) = a) ∧
    ∀ c : Elem w, c ≠ 0#w.bits → Function.Bijective (gfMul w ts c)

/-! ### Errors -/

/-- BadOperand (60_exceptions.md R175): an element operand the command reads does not fit; nothing else changes. That this also
holds of a `region_multiply` whose regions are not valid is the model's reading (notes/assumptions/6.md, DEDUCED). -/
def Obligations.WideOperandRaisesBadOperand : Prop :=
  ∀ (s : State) (w : Width) (acc : Bool),
    (2 ^ w.bits ≤ s.port.ea.toNat ∨ 2 ^ w.bits ≤ s.port.eb.toNat →
      exec (.multiply (.supported w)) s = .next (s.onlyErr .badOperand) ∧
      exec (.divide (.supported w)) s = .next (s.onlyErr .badOperand)) ∧
    (2 ^ w.bits ≤ s.port.ea.toNat →
      exec (.inverse (.supported w)) s = .next (s.onlyErr .badOperand) ∧
      exec (.regionMultiply (.supported w) acc) s = .next (s.onlyErr .badOperand))

/-- 60_exceptions.md R172: DivisionByZero of `divide.w` when `EB` is 0, whatever `EA` holds that fits, and of `inverse.w` when
`EA` is 0; `ER` and everything else keep their values. -/
def Obligations.ZeroDivisorRaisesDivisionByZero : Prop :=
  ∀ (s : State) (w : Width),
    (s.port.ea.toNat < 2 ^ w.bits → s.port.eb = 0#32 →
      exec (.divide (.supported w)) s = .next (s.onlyErr .divisionByZero)) ∧
    (s.port.ea = 0#32 → exec (.inverse (.supported w)) s = .next (s.onlyErr .divisionByZero))

/-- 60_exceptions.md R173: InvalidLength of `region_multiply.16` with an odd `LEN` and of `region_multiply.32` when `LEN` is no
multiple of 4, whatever the constant; nothing else changes. Never at w = 8 and never of `region_xor`. That this also holds where
the regions are not valid is the model's reading (notes/assumptions/6.md, DEDUCED). -/
def Obligations.PartialElementRaisesInvalidLength : Prop :=
  ∀ (s : State) (acc : Bool),
    (s.port.ea.toNat < 2 ^ 16 → s.port.len.toNat % 2 = 1 →
      exec (.regionMultiply (.supported .w16) acc) s = .next (s.onlyErr .invalidLength)) ∧
    (s.port.len.toNat % 4 ≠ 0 →
      exec (.regionMultiply (.supported .w32) acc) s = .next (s.onlyErr .invalidLength)) ∧
    (∀ t, exec (.regionMultiply (.supported .w8) acc) s = .next t → t.port.err ≠ .invalidLength) ∧
    ∀ t, exec .regionXor s = .next t → t.port.err ≠ .invalidLength

/-- 60_exceptions.md R176: the first error in the fixed order is the one reported, and it is the command's only effect; without
an error a command that completes leaves `STATUS.ERR` at 0, and only a region command may be refused. That the checks win over
a refusal for regions that are not valid is the model's reading (notes/assumptions/6.md, DEDUCED). -/
def Obligations.ChecksAreMadeInOrder : Prop :=
  ∀ (c : Word) (s : State), s.cur < s.ports.length →
    (∀ r, decodeWord c = .error r → runWord c s = .next (s.onlyErr .illegalCommand)) ∧
    ∀ i, decodeWord c = .ok i →
      (∀ e, firstError i s = some e → runWord c s = .next (s.onlyErr e)) ∧
      (firstError i s = none →
        (∀ t, runWord c s = .next t → t.port.err = .none) ∧
        ((∃ t, runWord c s = .next t) ∨
          (∃ r, runWord c s = .refused r) ∧ (i = .regionXor ∨ ∃ w acc, i = .regionMultiply w acc)))

/-- A command that reports an error has no other effect: not on `ER` or any other register, memory or the tables
(60_exceptions.md R177). -/
def Obligations.ErrorsHaveNoOtherEffect : Prop :=
  ∀ (c : Word) (s t : State), s.cur < s.ports.length → runWord c s = .next t → t.port.err ≠ .none →
    t = s.onlyErr t.port.err

/-! ### What a command leaves unchanged -/

/-- 10_state.md R24: `ER` is written only by a `multiply`, `divide` or `inverse` that completes with `STATUS.ERR = 0`, and its
bits `[31:w]` are then 0. -/
def Obligations.OnlyElementCommandsWriteER : Prop :=
  ∀ (c : Word) (s t : State), s.cur < s.ports.length → runWord c s = .next t →
    (t.port.er ≠ s.port.er → t.port.err = .none ∧
      ∃ wc, decodeWord c = .ok (.multiply wc) ∨ decodeWord c = .ok (.divide wc) ∨ decodeWord c = .ok (.inverse wc)) ∧
    (∀ w, decodeWord c = .ok (.multiply (.supported w)) ∨ decodeWord c = .ok (.divide (.supported w)) ∨
        decodeWord c = .ok (.inverse (.supported w)) →
      t.port.err = .none → t.port.er.toNat < 2 ^ w.bits) ∧
    ∀ q, q ≠ s.cur → (t.portAt q).er = (s.portAt q).er

/-- The frame of every command word (10_state.md R22, R25, R36; 60_exceptions.md R182): only `ER` and `STATUS.ERR` of the executing
port, the tables and memory may change; the operand registers, the other ports, the parameters and the host's side never. -/
def Obligations.CommandsChangeOnlyResultStatusTablesAndMemory : Prop :=
  ∀ (c : Word) (s t : State), runWord c s = .next t →
    t = { s with
      ports := s.ports.modify s.cur fun p => { p with er := t.port.er, err := t.port.err }
      tables := t.tables
      mem := t.mem }

/-- The memory frame of every command word (20_memory.md R56): a byte that is not in the destination region of a region command
keeps its value; element commands, `init_field` and illegal words change no byte. -/
def Obligations.CommandsWriteOnlyTheirDestination : Prop :=
  ∀ (c : Word) (s t : State) (x : Nat), s.mem.wf → runWord c s = .next t →
    ((decodeWord c ≠ .ok .regionXor ∧ ∀ w acc, decodeWord c ≠ .ok (.regionMultiply w acc)) ∨
      ¬ s.port.rangeD.contains x) →
    t.mem.read x = s.mem.read x

/-- No command reads `STATUS.ERR`, and every command overwrites it (10_state.md R29): a command does the same whatever error the
port reported before. -/
def Obligations.StatusErrIsNeverRead : Prop :=
  ∀ (c : Word) (s : State) (e : ErrCode), runWord c (s.onlyErr e) = runWord c s

/-- What a command delivers does not depend on which widths were built before (10_state.md R35). -/
def Obligations.ResultsDoNotDependOnWhatIsBuilt : Prop :=
  ∀ (i : Instr) (s t : State) (tb : Tables), s.Wf → State.Wf { s with tables := tb } → exec i s = .next t →
    ∃ t', exec i { s with tables := tb } = .next t' ∧ t'.ports = t.ports ∧ t'.mem = t.mem

/-! ### Region operations -/

/-- `region_xor` (42_region_ops.md R141): with valid regions and no partial overlap it completes, every destination byte is the
XOR of the source bytes as they were when the command began, aliased or not, and nothing else changes. -/
def Obligations.RegionXorStoresTheXor : Prop :=
  ∀ s : State, s.Wf → XorRegionsOk s →
    ∃ m, exec .regionXor s = .next { s.onlyErr .none with mem := m } ∧
      (∀ i, i < s.port.len.toNat → m.read (s.port.pd.toNat + i) =
        s.mem.read (s.port.pa.toNat + i) ^^^ s.mem.read (s.port.pb.toNat + i)) ∧
      ∀ x, ¬ s.port.rangeD.contains x → m.read x = s.mem.read x

/-- `region_xor` gives the same memory whatever the order of its positions (20_memory.md R60, R61). -/
def Obligations.RegionXorInAnyOrder : Prop :=
  ∀ (m : Memory) (a b d n : Nat) (order : List Nat), m.wf → order.Perm (List.range n) →
    NoPartialOverlap { base := d, len := n } { base := a, len := n } →
    NoPartialOverlap { base := d, len := n } { base := b, len := n } →
    xorPositions a b d m order = xorPositions a b d m (List.range n)

/-- `region_xor` is refused exactly when it breaks a precondition on its regions; a command whose only fault is a partial overlap
is refused as such (42_region_ops.md R140, 20_memory.md R59, R62). -/
def Obligations.RegionXorRefusedExactly : Prop :=
  ∀ s : State,
    ((∃ r, exec .regionXor s = .refused r) ↔ ¬ XorRegionsOk s) ∧
    (RegionOk s.cfg .reads s.port.rangeA → RegionOk s.cfg .reads s.port.rangeB → RegionOk s.cfg .writes s.port.rangeD →
      ¬ XorRegionsOk s → exec .regionXor s = .refused .partialOverlap) ∧
    (2 ^ s.cfg.aw < s.port.pa.toNat + s.port.len.toNat → exec .regionXor s = .refused .regionWraps)

/-- `region_xor` is its own inverse (42_region_ops.md R153, read as two commands), and commutative in its sources. The first part
asks that tmp and b be disjoint: where tmp is b, the first command overwrites b and the rule's property does not hold. -/
def Obligations.RegionXorIsSelfInverse : Prop :=
  (∀ (s t u : State) (tmp2 : Addr), s.Wf → exec .regionXor s = .next t →
    (∀ x, ¬ (s.port.rangeD.contains x ∧ s.port.rangeB.contains x)) →
    exec .regionXor { t with ports := t.ports.modify t.cur fun p => { p with pa := p.pd, pd := tmp2 } } = .next u →
    ∀ i, i < s.port.len.toNat → u.mem.read (tmp2.toNat + i) = s.mem.read (s.port.pa.toNat + i)) ∧
  ∀ s t : State, s.Wf → exec .regionXor s = .next t →
    ∃ t', exec .regionXor { s with ports := s.ports.modify s.cur fun p => { p with pa := p.pb, pb := p.pa } } = .next t' ∧
      t'.mem = t.mem

/-- `region_multiply.w` and `region_multiply.w.acc` (42_region_ops.md R142): when the checks pass and the regions are valid the
command completes; every destination element is the product of the constant and the source element, XORed into the old
destination element with `ACC = 1`, all as they were when the command began; the width is built and nothing else changes. That
`ACC = 1` asks for a readable destination is the model's reading (notes/assumptions/19.md, DEDUCED). -/
def Obligations.RegionMultiplyStoresTheProducts : Prop :=
  ∀ (s : State) (w : Width) (acc : Bool), s.Wf → buildOk w (s.cfg.poly w) (s.cfg.gen w) = true →
    s.port.ea.toNat < 2 ^ w.bits → s.port.len.toNat % w.bytes = 0 → MultiplyRegionsOk s acc →
    ∃ m, exec (.regionMultiply (.supported w) acc) s =
        .next { s.onlyErr .none with mem := m, tables := s.tablesWith w } ∧
      (∀ j, j < s.port.len.toNat / w.bytes →
        m.readElem s.cfg.elemEndian w (s.port.pd.toNat + j * w.bytes) =
          (if acc then s.mem.readElem s.cfg.elemEndian w (s.port.pd.toNat + j * w.bytes) else 0#w.bits) ^^^
            pmul (s.cfg.poly w) (s.port.ea.setWidth w.bits)
              (s.mem.readElem s.cfg.elemEndian w (s.port.pa.toNat + j * w.bytes))) ∧
      ∀ x, ¬ s.port.rangeD.contains x → m.read x = s.mem.read x

/-- 42_region_ops.md R146: constant 0 clears the destination, or with `ACC = 1` leaves memory alone, and asks nothing of the
source region; the length check and `get_tables(w)` come first (R143, 40_field_tables.md R106). That their errors also win over a
destination that is not valid is the model's reading (notes/assumptions/6.md, DEDUCED). -/
def Obligations.ConstantZeroClearsTheDestination : Prop :=
  ∀ (s : State) (w : Width) (acc : Bool), s.Wf → s.port.ea = 0#32 →
    (s.port.len.toNat % w.bytes ≠ 0 →
      exec (.regionMultiply (.supported w) acc) s = .next (s.onlyErr .invalidLength)) ∧
    (s.port.len.toNat % w.bytes = 0 →
      (buildOk w (s.cfg.poly w) (s.cfg.gen w) = false →
        exec (.regionMultiply (.supported w) acc) s = .next (s.onlyErr .configurationError)) ∧
      (buildOk w (s.cfg.poly w) (s.cfg.gen w) = true → RegionOk s.cfg .writes s.port.rangeD →
        ∃ m, exec (.regionMultiply (.supported w) acc) s =
            .next { s.onlyErr .none with mem := m, tables := s.tablesWith w } ∧
          (acc = true → m = s.mem) ∧
          (acc = false → ∀ x, s.port.rangeD.contains x → m.read x = 0x00#8) ∧
          ∀ x, ¬ s.port.rangeD.contains x → m.read x = s.mem.read x))

/-- 42_region_ops.md R147: constant 1 copies the source byte for byte, or XORs it into the destination with `ACC = 1`, at every
width and in both byte orders. That `ACC = 1` asks for a readable destination is the model's reading (notes/assumptions/19.md,
DEDUCED). -/
def Obligations.ConstantOneCopies : Prop :=
  ∀ (s : State) (w : Width) (acc : Bool), s.Wf → buildOk w (s.cfg.poly w) (s.cfg.gen w) = true →
    s.port.ea = 1#32 → s.port.len.toNat % w.bytes = 0 → MultiplyRegionsOk s acc →
    ∃ m, exec (.regionMultiply (.supported w) acc) s =
        .next { s.onlyErr .none with mem := m, tables := s.tablesWith w } ∧
      (∀ i, i < s.port.len.toNat → m.read (s.port.pd.toNat + i) =
        (if acc then s.mem.read (s.port.pd.toNat + i) else 0x00#8) ^^^ s.mem.read (s.port.pa.toNat + i)) ∧
      ∀ x, ¬ s.port.rangeD.contains x → m.read x = s.mem.read x

/-- `region_multiply` gives the same memory whatever the order of its elements (20_memory.md R60, 42_region_ops.md R144), and with
constant 0 whatever the order of the bytes it clears (R146). -/
def Obligations.RegionMultiplyInAnyOrder : Prop :=
  ∀ (m : Memory) (en : Endian) (w : Width) (ts : TableSet) (c : Elem w) (acc : Bool) (a d n : Nat) (order : List Nat),
    m.wf → order.Perm (List.range n) →
    (NoPartialOverlap { base := d, len := n * w.bytes } { base := a, len := n * w.bytes } →
      scalePositions en w ts c acc a d m order = scalePositions en w ts c acc a d m (List.range n)) ∧
    order.foldl (clearPosition d) m = (List.range n).foldl (clearPosition d) m

/-- A `region_multiply` whose checks pass is refused exactly when it breaks a precondition on its regions (42_region_ops.md R140,
R146; 20_memory.md R59, R62). Two of these preconditions are the model's reading (DEDUCED): constant 0 with `ACC = 1` still asks for
a writable destination (notes/assumptions/18.md), and another constant with `ACC = 1` for a readable one (notes/assumptions/19.md). -/
def Obligations.RegionMultiplyRefusedExactly : Prop :=
  ∀ (s : State) (w : Width) (acc : Bool), firstError (.regionMultiply (.supported w) acc) s = none →
    ((∃ r, exec (.regionMultiply (.supported w) acc) s = .refused r) ↔ ¬ MultiplyRegionsOk s acc)

/-- 20_memory.md R53: which byte of an element lies at which address, in both byte orders, for reads and for writes; a write
touches no other byte, and a read gives back what was written. -/
def Obligations.ElementBytesFollowTheByteOrder : Prop :=
  ∀ (m : Memory) (w : Width) (addr : Nat) (v : Elem w), m.wf →
    (∀ k, k < w.bytes →
      (m.readElem .little w addr).extractLsb' (8 * k) 8 = m.read (addr + k) ∧
      (m.readElem .big w addr).extractLsb' (8 * (w.bytes - 1 - k)) 8 = m.read (addr + k) ∧
      (m.writeElem .little w addr v).read (addr + k) = v.extractLsb' (8 * k) 8 ∧
      (m.writeElem .big w addr v).read (addr + k) = v.extractLsb' (8 * (w.bytes - 1 - k)) 8) ∧
    ∀ en, (∀ x, ¬ Range.contains { base := addr, len := w.bytes } x → (m.writeElem en w addr v).read x = m.read x) ∧
      (m.writeElem en w addr v).readElem en w addr = v

/-- 42_region_ops.md R151: the log and antilog method, the full table of width 8 and the split tables all compute the polynomial
product. -/
def Obligations.AllMethodsAgree : Prop :=
  ∀ (s : State) (w : Width) (ts : TableSet), s.Wf → s.tables.get w = some ts →
    (∀ c e : Elem w, tableMul w ts c e = pmul (s.cfg.poly w) c e) ∧
    (∀ c e : Elem w, gfMulSplit w ts c e = pmul (s.cfg.poly w) c e) ∧
    (∀ t8, s.tables.get .w8 = some t8 → ∀ c e : Elem .w8, t8.multab8 c e = pmul (s.cfg.poly .w8) c e)

/-- `LEN = 0` is legal and makes a region command complete without any memory access, whatever the addresses
(10_state.md R25, 20_memory.md R56). -/
def Obligations.EmptyRegionAccessesNothing : Prop :=
  ∀ (s : State) (w : Width) (acc : Bool), s.Wf → s.port.len = 0#64 →
    exec .regionXor s = .next (s.onlyErr .none) ∧
    (buildOk w (s.cfg.poly w) (s.cfg.gen w) = true → s.port.ea.toNat < 2 ^ w.bits →
      exec (.regionMultiply (.supported w) acc) s = .next { s.onlyErr .none with tables := s.tablesWith w })

/-! ### The host interface -/

/-- 10_state.md R28: the layout of `STATUS`. -/
def Obligations.StatusLayout : Prop :=
  ∀ (s : State) (e : ErrCode),
    (s.statusWord e).extractLsb' 0 3 = e.code ∧ (s.statusWord e).extractLsb' 3 5 = 0#5 ∧
    (s.statusWord e).getLsbD 8 = s.built .w8 ∧ (s.statusWord e).getLsbD 9 = s.built .w16 ∧
    (s.statusWord e).getLsbD 10 = s.built .w32 ∧ (s.statusWord e).extractLsb' 11 21 = 0#21 ∧
    ErrCode.none.code = 0#3 ∧ ErrCode.configurationError.code = 1#3 ∧ ErrCode.divisionByZero.code = 2#3 ∧
    ErrCode.invalidLength.code = 3#3 ∧ ErrCode.illegalCommand.code = 4#3 ∧ ErrCode.badOperand.code = 5#3

/-- What `rd p, n` reads from an idle port (10_state.md R21, R27, R28): `CMD` reads 0; a read changes nothing but what the host
has seen. -/
def Obligations.HostReadsRegisters : Prop :=
  ∀ (s : State) (p n : Nat) (rest : List HostAction),
    s.host = .rd p n :: rest → p < s.ports.length → (∀ f ∈ s.inFlight, f.port ≠ p) → n ≤ 8 →
    ∃ v : BitVec 64, step s = .next { s with host := rest, seen := .register v :: s.seen } ∧
      (n = 0 → v.toNat = 0) ∧ (n = 1 → v.toNat = (s.statusWord (s.portAt p).err).toNat) ∧
      (n = 2 → v.toNat = (s.portAt p).ea.toNat) ∧ (n = 3 → v.toNat = (s.portAt p).eb.toNat) ∧
      (n = 4 → v.toNat = (s.portAt p).er.toNat) ∧ (n = 5 → v = (s.portAt p).pa) ∧ (n = 6 → v = (s.portAt p).pb) ∧
      (n = 7 → v = (s.portAt p).pd) ∧ (n = 8 → v = (s.portAt p).len)

/-- What `wr p, n, v` does to an idle port (10_state.md R21, R23, R25, R28): an operand register takes the value, `STATUS` and
`ER` ignore it, and nothing else changes. -/
def Obligations.HostWritesRegisters : Prop :=
  ∀ (s : State) (p n v : Nat) (rest : List HostAction),
    s.cfg.Legal → s.host = .wr p n v :: rest → p < s.ports.length → (∀ f ∈ s.inFlight, f.port ≠ p) →
    1 ≤ n → n ≤ 8 → v < 2 ^ (if n ≤ 4 then 32 else s.cfg.aw) →
    ∃ q : Port, step s = .next { s with host := rest, ports := s.ports.set p q } ∧
      q.err = (s.portAt p).err ∧ q.er = (s.portAt p).er ∧
      q.ea.toNat = (if n = 2 then v else (s.portAt p).ea.toNat) ∧
      q.eb.toNat = (if n = 3 then v else (s.portAt p).eb.toNat) ∧
      q.pa.toNat = (if n = 5 then v else (s.portAt p).pa.toNat) ∧
      q.pb.toNat = (if n = 6 then v else (s.portAt p).pb.toNat) ∧
      q.pd.toNat = (if n = 7 then v else (s.portAt p).pd.toNat) ∧
      q.len.toNat = (if n = 8 then v else (s.portAt p).len.toNat)

/-- Host accesses refused on an idle port: a register number above 8 (10_state.md R22), and a value wider than the register (R23,
93_implementation_defined.md U11). That the last holds of `CMD`, `STATUS` and `ER` too is the model's reading
(notes/assumptions/21.md, DEDUCED). -/
def Obligations.HostAccessesRefused : Prop :=
  ∀ (s : State) (p n v : Nat) (rest : List HostAction), p < s.ports.length → (∀ f ∈ s.inFlight, f.port ≠ p) →
    (9 ≤ n → s.host = .rd p n :: rest → step s = .refused .noSuchRegister) ∧
    (9 ≤ n → s.host = .wr p n v :: rest → step s = .refused .noSuchRegister) ∧
    (n ≤ 8 → 2 ^ (if n ≤ 4 then 32 else s.cfg.aw) ≤ v → s.host = .wr p n v :: rest → step s = .refused .valueTooWide)

/-- The host loads the bytes it stored (30_encoding.md R88, 20_memory.md R50), and a store changes no byte outside them. -/
def Obligations.HostLoadsWhatItStored : Prop :=
  ∀ (s t u : State) (addr : Nat) (bs : List Byte) (rest : List HostAction),
    s.mem.wf → s.host = .st addr bs :: .ld addr bs.length :: rest → step s = .next t → step t = .next u →
    u.seen = .bytes bs :: s.seen ∧ u.host = rest ∧ u.mem = t.mem ∧ u.ports = s.ports ∧ u.tables = s.tables ∧
    ∀ x, ¬ Range.contains { base := addr, len := bs.length } x → u.mem.read x = s.mem.read x

/-- The source's call `r = multiply(a, b)` as its host sequence (30_encoding.md R89): from every well-formed idle state, with a
width that builds and operands that fit, five steps run it, the host reads `STATUS.ERR = 0` and then the field product, and data
memory is untouched. -/
def Obligations.MultiplyCallReturnsTheProduct : Prop :=
  ∀ (s : State) (p a b : Nat) (w : Width) (rest : List HostAction),
    s.Wf → s.inFlight = [] → p < s.cfg.nports → buildOk w (s.cfg.poly w) (s.cfg.gen w) = true →
    a < 2 ^ w.bits → b < 2 ^ w.bits → s.host = (SourceCall.multiply (.supported w) a b).expand p ++ rest →
    ∃ (t : State) (status : BitVec 64), runSteps 5 s = .next t ∧ t.host = rest ∧ t.mem = s.mem ∧
      t.seen = .register ((pmul (s.cfg.poly w) (BitVec.ofNat w.bits a) (BitVec.ofNat w.bits b)).setWidth 64) ::
        .register status :: s.seen ∧
      status.extractLsb' 0 3 = 0#3

/-- An access to a register of a port on which a command runs is held until that command completes
(70_reset_and_hazards.md R194). That the hold is a step of its own, which completes the command in flight and leaves the access
waiting, is the model's choice (notes/assumptions/17.md, DESIGN CHOICE). -/
def Obligations.AccessIsHeldUntilCompletion : Prop :=
  ∀ (s : State) (a : HostAction) (rest : List HostAction) (f : Flight) (n v : Nat) (c : Word),
    s.host = a :: rest → f ∈ s.inFlight → s.inFlight.Pairwise (fun f g => f.port ≠ g.port) →
    (a = .wr f.port n v ∨ a = .rd f.port n ∨ a = .start f.port c) →
    step s = runWord f.word { s with inFlight := s.inFlight.filter (fun g => g.port != f.port), cur := f.port }

/-- Races are refused (20_memory.md R66, 70_reset_and_hazards.md R195 (a), 93_implementation_defined.md U2): a command, begun or run
at once, where it or a region command in flight would access a byte of the other's destination or write a byte of a source region
of it, or where their destinations meet, accessed or not; a host store to a byte of the destination or of a source region of a region command in flight; and a host load of a byte of
its destination region, whether the command accesses that region or not. A host access to memory that exists and has no side
effects, without such a conflict (with no command in flight, always), completes: a store writes its bytes and nothing else, a load
shows the host the bytes and changes nothing (30_encoding.md R88). That the map does not limit the host (notes/assumptions/9.md,
DESIGN CHOICE), and that a command which will end in an error has its regions too (notes/assumptions/25.md, DEDUCED), is the model's
reading. -/
def Obligations.RacesAreRefused : Prop :=
  (∀ (s : State) (rest : List HostAction) (f : Flight), f ∈ s.inFlight →
    (∀ p (c : Word), p < s.ports.length → (∀ g ∈ s.inFlight, g.port ≠ p) →
      f.Races { s with host := rest, cur := p } c ∨ Conflict f.touches (touches c { s with host := rest, cur := p }) →
      (s.host = .wr p 0 c.toNat :: rest → step s = .refused .race) ∧
      (s.host = .start p c :: rest → step s = .refused .race)) ∧
    (∀ addr (bs : List Byte), s.host = .st addr bs :: rest → HostRegionOk s.cfg { base := addr, len := bs.length } →
      f.destinationHas s (Range.contains { base := addr, len := bs.length }) ∨
        f.sourceHas s (Range.contains { base := addr, len := bs.length }) → step s = .refused .race) ∧
    ∀ addr n, s.host = .ld addr n :: rest → HostRegionOk s.cfg { base := addr, len := n } →
      f.destinationHas s (Range.contains { base := addr, len := n }) → step s = .refused .race) ∧
  (∀ (s : State) (rest : List HostAction) (addr : Nat) (bs : List Byte), s.mem.wf → s.host = .st addr bs :: rest →
    HostRegionOk s.cfg { base := addr, len := bs.length } →
    (∀ g ∈ s.inFlight, ¬ g.destinationHas s (Range.contains { base := addr, len := bs.length }) ∧
      ¬ g.sourceHas s (Range.contains { base := addr, len := bs.length })) →
    ∃ m, step s = .next { s with host := rest, mem := m } ∧
      (∀ i (hi : i < bs.length), m.read (addr + i) = bs[i]) ∧
      ∀ x, ¬ Range.contains { base := addr, len := bs.length } x → m.read x = s.mem.read x) ∧
  ∀ (s : State) (rest : List HostAction) (addr n : Nat), s.host = .ld addr n :: rest →
    HostRegionOk s.cfg { base := addr, len := n } →
    (∀ g ∈ s.inFlight, ¬ g.destinationHas s (Range.contains { base := addr, len := n })) →
    step s = .next { s with
      host := rest
      seen := .bytes ((List.range n).map fun i => s.mem.read (addr + i)) :: s.seen }

/-- Commands of other host threads, from their beginning to their completion (60_exceptions.md R182). A `start` of a word that
races with no command in flight, on an idle port, puts the command in flight and changes nothing else, and is refused where the command is (that it is
refused when it begins is notes/assumptions/15.md, DESIGN CHOICE). A `build` leaves the tables the command would leave and changes
nothing else (40_field_tables.md R105; notes/assumptions/16.md, DEDUCED). A `finish` runs the whole command (notes/assumptions/14.md,
DEDUCED). On a port with no command in flight the last two change nothing (notes/assumptions/17.md, DESIGN CHOICE). Commands in
flight on two ports that do not conflict give the same result whichever completes first (20_memory.md R65, R67). -/
def Obligations.ConcurrentCommandsCommute : Prop :=
  (∀ (s : State) (p : Nat) (c : Word) (rest : List HostAction),
    s.host = .start p c :: rest → p < s.ports.length → (∀ f ∈ s.inFlight, f.port ≠ p) →
    (∀ f ∈ s.inFlight, ¬ f.Races { s with host := rest, cur := p } c) →
    (∀ t, runWord c { s with host := rest, cur := p } = .next t →
      step s = .next { s with
        host := rest
        inFlight := s.inFlight ++ [{ port := p, word := c, touches := touches c { s with host := rest, cur := p } }] }) ∧
    ∀ r, runWord c { s with host := rest, cur := p } = .refused r → step s = .refused r) ∧
  (∀ (s : State) (p : Nat) (rest : List HostAction),
    (s.flightOn p = none → s.host = .build p :: rest ∨ s.host = .finish p :: rest → step s = .next { s with host := rest }) ∧
    ∀ f, s.flightOn p = some f →
      (s.host = .build p :: rest → ∀ t,
        runWord f.word { s with host := rest, inFlight := s.inFlight.filter (fun g => g.port != p), cur := p } = .next t →
        step s = .next { s with host := rest, tables := t.tables }) ∧
      (s.host = .finish p :: rest → step s =
        runWord f.word { s with host := rest, inFlight := s.inFlight.filter (fun g => g.port != p), cur := p })) ∧
  ∀ (s s1 s2 : State) (p q : Nat) (f g : Flight), s.Wf → p ≠ q →
    s.flightOn p = some f → s.flightOn q = some g →
    f.touches = touches f.word (s.landed p) → g.touches = touches g.word (s.landed q) →
    ¬ Conflict f.touches g.touches →
    finishOn p s = .next s1 → finishOn q s1 = .next s2 →
    ∃ t1 t2, finishOn q s = .next t1 ∧ finishOn p t1 = .next t2 ∧
      t2.ports = s2.ports ∧ t2.tables = s2.tables ∧ t2.mem = s2.mem

/-- Reset (70_reset_and_hazards.md R190, R191): nothing is built, `STATUS.ERR` is 0 on every port, no command is in flight, the
parameters stay, and every byte of memory outside the destination regions `[PD, PD+LEN)` of the region commands in flight is
untouched. That the host's remaining actions stay is the model's choice (notes/assumptions/22.md, DESIGN CHOICE). -/
def Obligations.ResetActionResetsTheEngine : Prop :=
  ∀ (s : State) (rest : List HostAction), s.mem.wf → s.host = .reset :: rest →
    ∃ t, step s = .next t ∧ t.host = rest ∧ t.cfg = s.cfg ∧ t.inFlight = [] ∧
      (∀ w, t.built w = false) ∧ t.ports.length = s.cfg.nports ∧ (∀ p ∈ t.ports, p.err = .none) ∧
      ∀ x, (∀ f ∈ s.inFlight,
          (decodeWord f.word = .ok .regionXor ∨ ∃ w acc, decodeWord f.word = .ok (.regionMultiply w acc)) →
          ¬ (s.portAt f.port).rangeD.contains x) →
        t.mem.read x = s.mem.read x

/-- The state right after reset, with any parameters (10_state.md R37): nothing built, `STATUS.ERR` 0 on each of the `NPORTS`
ports, so that `STATUS` reads 0, and no command in flight. -/
def Obligations.ResetStateIsAsTheSpecSays : Prop :=
  State.reset = State.resetWith Config.default ∧
  ∀ c : Config, (State.resetWith c).cfg = c ∧ (∀ w, (State.resetWith c).built w = false) ∧
    (State.resetWith c).ports.length = c.nports ∧
    (∀ p ∈ (State.resetWith c).ports, p.err = .none ∧ (State.resetWith c).statusWord p.err = 0#32) ∧
    (State.resetWith c).inFlight = []

/-! ### Invariants -/

/-- Every step keeps a well-formed state well formed: legal parameters, `AW`-bit address registers on every port, memory in
canonical form inside the address space, and no built table set but the one of a valid pair of parameters. -/
def Obligations.StepKeepsStatesWellFormed : Prop :=
  ∀ s t : State, s.Wf → step s = .next t → t.Wf

/-- The state after reset is well formed, for all legal parameters. -/
def Obligations.ResetStateIsWellFormed : Prop :=
  ∀ c : Config, c.Legal → (State.resetWith c).Wf

/-- Every command completes in finite time (20_memory.md R69, 70_reset_and_hazards.md R196): a step with a host action waiting or a
command in flight takes an action from the host's sequence or completes a command, and a run of as many steps as the bound says,
if nothing in it is refused, ends with no action waiting and no command in flight. That commands complete is the rules'; that a step
with no host action waiting completes one (notes/assumptions/13.md, DESIGN CHOICE; 14.md, DEDUCED), and that a hold is a step which
completes one (notes/assumptions/17.md, DESIGN CHOICE), is the model's choice. -/
def Obligations.EveryStepMakesProgress : Prop :=
  (∀ s t : State, s.host ≠ [] ∨ s.inFlight ≠ [] → step s = .next t →
    2 * t.host.length + t.inFlight.length < 2 * s.host.length + s.inFlight.length) ∧
  ∀ s t : State, runSteps (2 * s.host.length + s.inFlight.length) s = .next t → t.host = [] ∧ t.inFlight = []

/-- The parameters are fixed for a run (10_state.md R36). -/
def Obligations.ParametersNeverChange : Prop :=
  ∀ s t : State, step s = .next t → t.cfg = s.cfg
end

