-- ==== Sys2Proof/Laws/Memory.lean ====
section
/-! SUPPORT. The laws of data memory (20_memory.md R50): reads after writes, the canonical form that every memory operation
keeps, and equality of canonical memories that read the same everywhere. -/

namespace Sys2Proof.Machine

/-- A cell of a written list is the written one or an old one. -/
theorem mem_writeCells {cs : List Host.Cell} {x : Nat} {v : Byte} {c : Host.Cell} (h : c ∈ writeCells cs x v) :
    c = (x, v) ∧ v ≠ Memory.unlisted ∨ c ∈ cs := by
  induction cs with
  | nil =>
    unfold writeCells at h
    split at h
    · cases h
    · next hv => simp at h; exact .inl ⟨h, hv⟩
  | cons d cs ih =>
    obtain ⟨a, u⟩ := d
    unfold writeCells at h
    split at h
    · split at h
      · exact .inr h
      · next hv => rcases List.mem_cons.1 h with h | h
                   · exact .inl ⟨h, hv⟩
                   · exact .inr h
    · split at h
      · split at h
        · exact .inr (List.mem_cons_of_mem _ h)
        · next hv => rcases List.mem_cons.1 h with h | h
                     · exact .inl ⟨h, hv⟩
                     · exact .inr (List.mem_cons_of_mem _ h)
      · rcases List.mem_cons.1 h with h | h
        · exact .inr (by simp [h])
        · rcases ih h with h | h
          · exact .inl h
          · exact .inr (List.mem_cons_of_mem _ h)

theorem writeCells_sorted {cs : List Host.Cell} (h : cs.Pairwise fun c d => c.1 < d.1) (x : Nat) (v : Byte) :
    (writeCells cs x v).Pairwise fun c d => c.1 < d.1 := by
  induction cs with
  | nil => unfold writeCells; split <;> simp
  | cons d cs ih =>
    obtain ⟨a, u⟩ := d
    have ⟨hd, hs⟩ := List.pairwise_cons.1 h
    unfold writeCells
    split
    · next hx =>
      split
      · exact h
      · refine List.pairwise_cons.2 ⟨fun c hc => ?_, h⟩
        rcases List.mem_cons.1 hc with rfl | hc
        · exact hx
        · exact Nat.lt_trans hx (hd c hc)
    · split
      · next hx =>
        split
        · exact hs
        · exact List.pairwise_cons.2 ⟨fun c hc => hx ▸ hd c hc, hs⟩
      · next hlt hne =>
        refine List.pairwise_cons.2 ⟨fun c hc => ?_, ih hs⟩
        rcases mem_writeCells hc with ⟨rfl, -⟩ | hc
        · show a < x
          omega
        · exact hd c hc

/-- A write keeps the canonical form. -/
theorem write_wf {m : Memory} (h : m.wf) (x : Nat) (v : Byte) : (m.write x v).wf := by
  refine ⟨writeCells_sorted h.1 x v, fun c hc => ?_⟩
  rcases mem_writeCells hc with ⟨rfl, hv⟩ | hc
  · exact hv
  · exact h.2 c hc

/-- An address below every listed one reads as unlisted. -/
theorem readCells_below {cs : List Host.Cell} {x : Nat} (h : ∀ c ∈ cs, x < c.1) : readCells cs x = Memory.unlisted := by
  cases cs with
  | nil => rfl
  | cons d cs => simp [readCells, h d (by simp)]

theorem readCells_writeCells_same {cs : List Host.Cell} (h : cs.Pairwise fun c d => c.1 < d.1) (x : Nat) (v : Byte) :
    readCells (writeCells cs x v) x = v := by
  induction cs with
  | nil =>
    unfold writeCells
    split
    · next hv => simp [readCells, hv]
    · simp [readCells]
  | cons d cs ih =>
    obtain ⟨a, u⟩ := d
    have ⟨hd, hs⟩ := List.pairwise_cons.1 h
    unfold writeCells
    split
    · next hx =>
      split
      · next hv => simp [readCells, hx, hv]
      · simp [readCells]
    · split
      · next hx =>
        split
        · next hv => rw [hv]; exact readCells_below fun c hc => hx ▸ hd c hc
        · simp [readCells]
      · next hlt hne => simp [readCells, hlt, hne, ih hs]

theorem readCells_writeCells_other {cs : List Host.Cell} (h : cs.Pairwise fun c d => c.1 < d.1) {x y : Nat} (hy : y ≠ x)
    (v : Byte) : readCells (writeCells cs x v) y = readCells cs y := by
  induction cs with
  | nil =>
    unfold writeCells
    split
    · rfl
    · simp [readCells, hy]
  | cons d cs ih =>
    obtain ⟨a, u⟩ := d
    have ⟨hd, hs⟩ := List.pairwise_cons.1 h
    unfold writeCells
    split
    · next hx =>
      split
      · rfl
      · by_cases hyx : y < x
        · have : y < a := by omega
          simp [readCells, hyx, this]
        · simp [readCells, hyx, hy]
    · split
      · next hlt hx =>
        subst hx
        split
        · by_cases hya : y < x
          · rw [readCells_below fun c hc => Nat.lt_trans hya (hd c hc)]
            simp [readCells, hya]
          · simp [readCells, hya, hy]
        · by_cases hya : y < x <;> simp [readCells, hya, hy]
      · next hlt hne => simp [readCells, ih hs]

/-- A byte reads as what was written to it last. -/
theorem read_write_same {m : Memory} (h : m.wf) (x : Nat) (v : Byte) : (m.write x v).read x = v :=
  readCells_writeCells_same h.1 x v

/-- A write leaves every other byte alone. -/
theorem read_write_other {m : Memory} (h : m.wf) {x y : Nat} (hy : y ≠ x) (v : Byte) : (m.write x v).read y = m.read y :=
  readCells_writeCells_other h.1 hy v

theorem readCells_of_mem {cs : List Host.Cell} (h : cs.Pairwise fun c d => c.1 < d.1) {a : Nat} {v : Byte}
    (hm : (a, v) ∈ cs) : readCells cs a = v := by
  induction cs with
  | nil => cases hm
  | cons d cs ih =>
    obtain ⟨b, u⟩ := d
    have ⟨hd, hs⟩ := List.pairwise_cons.1 h
    rcases List.mem_cons.1 hm with he | hm
    · cases he; simp [readCells]
    · have : b < a := hd _ hm
      simp [readCells, Nat.not_lt.2 (Nat.le_of_lt this), Nat.ne_of_gt this, ih hs hm]

theorem mem_of_readCells {cs : List Host.Cell} {a : Nat} (h : readCells cs a ≠ Memory.unlisted) :
    (a, readCells cs a) ∈ cs := by
  induction cs with
  | nil => exact absurd rfl h
  | cons d cs ih =>
    obtain ⟨b, u⟩ := d
    simp only [readCells] at h ⊢
    split at h
    · exact absurd rfl h
    · split at h
      · next hlt hx => simp [hx]
      · next hlt hx => simp [hlt, hx, ih h]

/-- Canonical memories that read the same everywhere are equal. -/
theorem memory_ext {m m' : Memory} (h : m.wf) (h' : m'.wf) (he : ∀ x, m.read x = m'.read x) : m = m' := by
  have sub : ∀ {n n' : Memory}, n.wf → n'.wf → (∀ x, n.read x = n'.read x) → ∀ c ∈ n.cells, c ∈ n'.cells := by
    intro n n' hn hn' hr c hc
    have h1 : n.read c.1 = c.2 := readCells_of_mem hn.1 hc
    have h2 : n'.read c.1 = c.2 := (hr c.1) ▸ h1
    have h3 := mem_of_readCells (cs := n'.cells) (a := c.1) (by
      rw [show readCells n'.cells c.1 = c.2 from h2]; exact hn.2 c hc)
    rwa [show readCells n'.cells c.1 = c.2 from h2] at h3
  have hasymm : ∀ c d : Host.Cell, c ∈ m.cells → d ∈ m'.cells → c.1 < d.1 → d.1 < c.1 → c = d := by
    intro c d _ _ h1 h2; omega
  have hperm : m.cells.Perm m'.cells :=
    (List.perm_ext_iff_of_nodup
      (h.1.imp fun hab => fun hEq => by rw [hEq] at hab; exact Nat.lt_irrefl _ hab)
      (h'.1.imp fun hab => fun hEq => by rw [hEq] at hab; exact Nat.lt_irrefl _ hab)).2
      fun c => ⟨sub h h' he c, sub h' h (fun x => (he x).symm) c⟩
  have : m.cells = m'.cells := hperm.eq_of_pairwise hasymm h.1 h'.1
  cases m; cases m'; simp_all

/-- A fold of memory operations that keep a property keeps it. -/
theorem foldl_keeps {α : Type} {P : Memory → Prop} {f : Memory → α → Memory} {l : List α}
    (h : ∀ m, ∀ i ∈ l, P m → P (f m i)) {m : Memory} (hm : P m) : P (l.foldl f m) := by
  induction l generalizing m with
  | nil => exact hm
  | cons i l ih =>
    exact ih (fun m j hj => h m j (List.mem_cons_of_mem _ hj)) (h m i (by simp) hm)

theorem writeBytes_wf {m : Memory} (h : m.wf) (x : Nat) (bs : List Byte) : (m.writeBytes x bs).wf := by
  induction bs generalizing m x with
  | nil => exact h
  | cons b bs ih => exact ih (write_wf h x b) (x + 1)

/-- What a store of bytes leaves: the bytes at its addresses, the old ones everywhere else. -/
theorem read_writeBytes {m : Memory} (h : m.wf) (x : Nat) (bs : List Byte) :
    (∀ i (hi : i < bs.length), (m.writeBytes x bs).read (x + i) = bs[i]) ∧
      ∀ y, y < x ∨ x + bs.length ≤ y → (m.writeBytes x bs).read y = m.read y := by
  induction bs generalizing m x with
  | nil => exact ⟨fun i hi => absurd hi (Nat.not_lt_zero i), fun _ _ => rfl⟩
  | cons b bs ih =>
    have ⟨hin, hout⟩ := ih (write_wf h x b) (x + 1)
    refine ⟨fun i hi => ?_, fun y hy => ?_⟩
    · cases i with
      | zero => exact (hout x (.inl (Nat.lt_succ_self x))).trans (read_write_same h x b)
      | succ i =>
        rw [show x + (i + 1) = x + 1 + i by omega]
        exact hin i (Nat.lt_of_succ_lt_succ hi)
    · have : (b :: bs).length = bs.length + 1 := rfl
      exact (hout y (by omega)).trans (read_write_other h (by omega) b)

theorem writeElem_wf {m : Memory} (h : m.wf) (en : Endian) (w : Width) (x : Nat) (v : Elem w) :
    (m.writeElem en w x v).wf :=
  foldl_keeps (P := Memory.wf) (fun _ _ _ hm => write_wf hm _ _) h

theorem xorPositions_wf {m : Memory} (h : m.wf) (a b d : Nat) (l : List Nat) : (xorPositions a b d m l).wf :=
  foldl_keeps (P := Memory.wf) (fun _ _ _ hm => write_wf hm _ _) h

theorem scalePositions_wf {m : Memory} (h : m.wf) (en : Endian) (w : Width) (ts : TableSet) (c : Elem w) (acc : Bool)
    (a d : Nat) (l : List Nat) : (scalePositions en w ts c acc a d m l).wf :=
  foldl_keeps (P := Memory.wf) (fun _ _ _ hm => writeElem_wf hm _ _ _ _) h

theorem scaledMemory_wf {m : Memory} (h : m.wf) (en : Endian) (w : Width) (ts : TableSet) (acc : Bool) (p : Port) :
    (scaledMemory en w ts acc p m).wf := by
  unfold scaledMemory
  split
  · split
    · exact h
    · exact foldl_keeps (P := Memory.wf) (fun _ _ _ hm => write_wf hm _ _) h
  · exact scalePositions_wf h _ _ _ _ _ _ _ _

theorem freeRegion_wf {m : Memory} (h : m.wf) (draw : Nat) (r : Range) : (freeRegion draw m r).wf :=
  foldl_keeps (P := Memory.wf) (fun _ _ _ hm => write_wf hm _ _) h

theorem memAfterReset_wf {m : Memory} (h : m.wf) (draw : Nat) (rs : List Range) : (memAfterReset draw m rs).wf :=
  foldl_keeps (P := Memory.wf) (fun _ _ _ hm => freeRegion_wf hm _ _) h

end Sys2Proof.Machine
end

