-- ==== Sys2Proof/Laws/PerInstr.lean ====
section
/-! SUPPORT. Statements about every command, one lemma per constructor: the reserved bits of every command word are 0
(30_encoding.md R81, `RSV`). -/

namespace Sys2Proof.Laws

/-- The word of a command has its reserved bits `c[31:7]` at 0. -/
def ReservedZero.Statement (i : Instr) : Prop := rsvField (encode i) = 0#25

theorem ReservedZero.initField (w : WidthCode) : ReservedZero.Statement (.initField w) := by
  rcases w with w | _ <;> [cases w; skip] <;> rfl
theorem ReservedZero.multiply (w : WidthCode) : ReservedZero.Statement (.multiply w) := by
  rcases w with w | _ <;> [cases w; skip] <;> rfl
theorem ReservedZero.divide (w : WidthCode) : ReservedZero.Statement (.divide w) := by
  rcases w with w | _ <;> [cases w; skip] <;> rfl
theorem ReservedZero.inverse (w : WidthCode) : ReservedZero.Statement (.inverse w) := by
  rcases w with w | _ <;> [cases w; skip] <;> rfl
theorem ReservedZero.regionXor : ReservedZero.Statement .regionXor := rfl
theorem ReservedZero.regionMultiply (w : WidthCode) (acc : Bool) : ReservedZero.Statement (.regionMultiply w acc) := by
  rcases w with w | _ <;> [cases w; skip] <;> cases acc <;> rfl

end Sys2Proof.Laws
end

