-- ==== Sys2Proof/Laws/State.lean ====
section
/-! SUPPORT. One lemma per field per update of the state (Machine/Ops.lean), and what the port accessors read after an update. -/

namespace Sys2Proof.Machine

section ModifyPort
variable (s : State) (q : Nat) (f : Port → Port)

@[simp] theorem modifyPortAt_cfg : (s.modifyPortAt q f).cfg = s.cfg := rfl
@[simp] theorem modifyPortAt_ports : (s.modifyPortAt q f).ports = s.ports.modify q f := rfl
@[simp] theorem modifyPortAt_tables : (s.modifyPortAt q f).tables = s.tables := rfl
@[simp] theorem modifyPortAt_mem : (s.modifyPortAt q f).mem = s.mem := rfl
@[simp] theorem modifyPortAt_inFlight : (s.modifyPortAt q f).inFlight = s.inFlight := rfl
@[simp] theorem modifyPortAt_cur : (s.modifyPortAt q f).cur = s.cur := rfl
@[simp] theorem modifyPortAt_host : (s.modifyPortAt q f).host = s.host := rfl
@[simp] theorem modifyPortAt_seen : (s.modifyPortAt q f).seen = s.seen := rfl
@[simp] theorem modifyPortAt_draws : (s.modifyPortAt q f).draws = s.draws := rfl

end ModifyPort

section SetErr
variable (s : State) (e : ErrCode)

@[simp] theorem raise_eq_setErr : s.raise e = s.setErr e := rfl
@[simp] theorem complete_eq_setErr : s.complete = s.setErr .none := rfl
@[simp] theorem setErr_cfg : (s.setErr e).cfg = s.cfg := rfl
@[simp] theorem setErr_ports : (s.setErr e).ports = s.ports.modify s.cur fun p => { p with err := e } := rfl
@[simp] theorem setErr_tables : (s.setErr e).tables = s.tables := rfl
@[simp] theorem setErr_mem : (s.setErr e).mem = s.mem := rfl
@[simp] theorem setErr_inFlight : (s.setErr e).inFlight = s.inFlight := rfl
@[simp] theorem setErr_cur : (s.setErr e).cur = s.cur := rfl
@[simp] theorem setErr_host : (s.setErr e).host = s.host := rfl
@[simp] theorem setErr_seen : (s.setErr e).seen = s.seen := rfl
@[simp] theorem setErr_draws : (s.setErr e).draws = s.draws := rfl

end SetErr

section Deliver
variable (s : State) {w : Width} (r : Elem w)

@[simp] theorem deliver_cfg : (s.deliver r).cfg = s.cfg := rfl
@[simp] theorem deliver_ports :
    (s.deliver r).ports = s.ports.modify s.cur fun p => { p with er := r.setWidth 32, err := .none } := rfl
@[simp] theorem deliver_tables : (s.deliver r).tables = s.tables := rfl
@[simp] theorem deliver_mem : (s.deliver r).mem = s.mem := rfl
@[simp] theorem deliver_inFlight : (s.deliver r).inFlight = s.inFlight := rfl
@[simp] theorem deliver_cur : (s.deliver r).cur = s.cur := rfl
@[simp] theorem deliver_host : (s.deliver r).host = s.host := rfl
@[simp] theorem deliver_seen : (s.deliver r).seen = s.seen := rfl
@[simp] theorem deliver_draws : (s.deliver r).draws = s.draws := rfl

end Deliver

/-- All that a step can do: stay idle, complete the command in flight that began first, complete the one that holds the host's
next action, or perform that action. -/
theorem step_cases (s : State) :
    (s.host = [] ∧ s.inFlight = [] ∧ step s = .next s) ∨
      (s.host = [] ∧ ∃ f fs, s.inFlight = f :: fs ∧ step s = finishOn f.port s) ∨
      (∃ a rest p, s.host = a :: rest ∧ s.holding? a = some p ∧ step s = finishOn p s) ∨
      ∃ a rest, s.host = a :: rest ∧ s.holding? a = none ∧ step s = perform a { s with host := rest } := by
  unfold step withoutHost nextAction
  cases hh : s.host with
  | nil =>
    cases hf : s.inFlight with
    | nil => exact .inl ⟨rfl, rfl, rfl⟩
    | cons f fs => exact .inr (.inl ⟨rfl, f, fs, rfl, rfl⟩)
  | cons a rest =>
    cases hp : s.holding? a with
    | some p => exact .inr (.inr (.inl ⟨a, rest, p, rfl, hp, by simp [hp]⟩))
    | none => exact .inr (.inr (.inr ⟨a, rest, rfl, hp, by simp [hp]⟩))

/-- An existing port reads as what the update makes of it. -/
theorem portAt_modify_same {s : State} {p : Nat} (h : p < s.ports.length) (f : Port → Port) :
    (s.modifyPortAt p f).portAt p = f (s.portAt p) := by
  simp [State.portAt, State.modifyPortAt, List.getD_eq_getElem?_getD, h]

/-- Other ports read as before (10_state.md R22). -/
theorem portAt_modify_other {s : State} {p q : Nat} (h : q ≠ p) (f : Port → Port) :
    (s.modifyPortAt p f).portAt q = s.portAt q := by
  simp [State.portAt, State.modifyPortAt, List.getD_eq_getElem?_getD, Ne.symm h]

/-- The registers of an existing port are those its list holds. -/
theorem portAt_eq_getElem {s : State} {p : Nat} (h : p < s.ports.length) : s.portAt p = s.ports[p] := by
  simp [State.portAt, List.getD_eq_getElem?_getD, h]

@[simp] theorem tables_get_set_same (t : Tables) (w : Width) (ts : TableSet) : (t.set w ts).get w = some ts := by
  cases w <;> rfl

theorem tables_get_set_other {t : Tables} {w v : Width} (h : v ≠ w) (ts : TableSet) : (t.set w ts).get v = t.get v := by
  cases w <;> cases v <;> first | rfl | exact absurd rfl h

/-- Setting a width's table set to what it already is changes nothing. -/
theorem tables_set_get {t : Tables} {w : Width} {ts : TableSet} (h : t.get w = some ts) : t.set w ts = t := by
  cases w <;> cases t <;> simp_all [Tables.get, Tables.set]

/-- All that `get_tables(w)` can do (40_field_tables.md R104): the tables were built and nothing changes, or they are built now
from the parameters and only the table state changes. -/
theorem getTables_cases {s t : State} {w : Width} {ts : TableSet} (h : s.getTables w = some (ts, t)) :
    (s.tables.get w = some ts ∧ t = s) ∨
      (s.tables.get w = none ∧ buildOk w (s.cfg.poly w) (s.cfg.gen w) = true ∧
        ts = { poly := s.cfg.poly w, gen := s.cfg.gen w } ∧ t = { s with tables := s.tables.set w ts }) := by
  unfold State.getTables at h
  cases hg : s.tables.get w with
  | some ts' => simp [hg] at h; exact .inl ⟨by rw [h.1], h.2.symm⟩
  | none =>
    simp only [hg] at h
    split at h
    · next hb => simp at h; exact .inr ⟨rfl, hb, h.1.symm, by rw [← h.2, ← h.1]⟩
    · cases h

/-- `get_tables(w)` fails exactly when the width is not built and its build fails (40_field_tables.md R106). -/
theorem getTables_eq_none {s : State} {w : Width} :
    s.getTables w = none ↔ s.tables.get w = none ∧ buildOk w (s.cfg.poly w) (s.cfg.gen w) = false := by
  unfold State.getTables
  cases hg : s.tables.get w <;> simp

/-- After `get_tables(w)` the width is built. -/
theorem getTables_built {s t : State} {w : Width} {ts : TableSet} (h : s.getTables w = some (ts, t)) :
    t.tables.get w = some ts := by
  rcases getTables_cases h with ⟨h1, rfl⟩ | ⟨-, -, -, rfl⟩
  · exact h1
  · simp

end Sys2Proof.Machine
end

