-- ==== Sys2Proof/Laws/Regions.lean ====
section
/-! SUPPORT. What the region checks of Machine/Operands.lean decide, in the terms of Safety.lean (20_memory.md R58, R59, R62,
R66), and what a reset leaves in memory (70_reset_and_hazards.md R191). -/

namespace Sys2Proof.Machine

theorem meets_iff {r q : Range} : r.meets q = true ↔ ∃ x, r.contains x ∧ q.contains x := by
  simp only [Range.meets, decide_eq_true_eq, Range.contains]
  constructor
  · rintro ⟨h1, h2, h3, h4⟩
    exact ⟨max r.base q.base, by omega⟩
  · rintro ⟨x, h⟩
    omega

theorem partlyOverlaps_eq_false {d r : Range} : partlyOverlaps d r = false ↔ NoPartialOverlap d r := by
  unfold partlyOverlaps NoPartialOverlap
  rw [Bool.and_eq_false_iff, bne_eq_false_iff_eq, or_comm, ← Bool.not_eq_true, meets_iff, not_exists]

/-- A region has no problem exactly when it is valid for the access. -/
theorem regionProblem_eq_none {c : Config} {acc : Access} {r : Range} :
    regionProblem c acc r = none ↔ RegionOk c acc r := by
  have hall : r.accessible c acc = true ↔ ∀ x, r.contains x → ∃ k, kindAt c x = some k ∧ kindAllows k acc = true := by
    unfold Range.accessible Range.contains addressAllows
    rw [List.all_eq_true]
    constructor
    · intro h x hx
      have := h (x - r.base) (List.mem_range.2 (by omega))
      rw [show r.base + (x - r.base) = x by omega] at this
      cases hk : kindAt c x with
      | none => simp [hk] at this
      | some k => exact ⟨k, rfl, by simpa [hk] using this⟩
    · intro h i hi
      obtain ⟨k, hk, ha⟩ := h (r.base + i) ⟨by omega, by have := List.mem_range.1 hi; omega⟩
      simp [hk, ha]
  have hdev : r.accessible c acc = true → r.coversDevice c = false := by
    intro h
    unfold Range.coversDevice
    rw [List.any_eq_false]
    intro i hi hd
    obtain ⟨k, hk, ha⟩ := hall.1 h (r.base + i) ⟨by omega, by have := List.mem_range.1 hi; omega⟩
    have : kindAt c (r.base + i) = some MemKind.sideEffects := by simpa using hd
    rw [hk] at this
    cases this
    cases acc <;> exact absurd ha (by decide)
  unfold regionProblem RegionOk
  rw [← hall]
  cases hs : r.inSpace c <;> simp only [Range.inSpace, decide_eq_false_iff_not, decide_eq_true_eq] at hs
  · simp [hs]
  · cases ha : r.accessible c acc
    · cases hd : r.coversDevice c <;> simp
    · simp [hs, hdev ha]

/-- What a region that a reset frees reads as: free values inside it, the old bytes outside (70_reset_and_hazards.md R191). -/
theorem read_freeRegion {m : Memory} (h : m.wf) (draw : Nat) (r : Range) (x : Nat) :
    (r.contains x → (freeRegion draw m r).read x = Config.freeByte draw x) ∧
      (¬ r.contains x → (freeRegion draw m r).read x = m.read x) := by
  obtain ⟨base, len⟩ := r
  simp only [Range.contains]
  induction len with
  | zero => exact ⟨fun hx => by omega, fun _ => rfl⟩
  | succ n ih =>
    have hw := freeRegion_wf h draw { base := base, len := n }
    have hs : freeRegion draw m { base := base, len := n + 1 } =
        (freeRegion draw m { base := base, len := n }).write (base + n) (Config.freeByte draw (base + n)) := by
      simp [freeRegion, List.range_succ]
    rw [hs]
    by_cases hx : x = base + n
    · subst hx
      exact ⟨fun _ => read_write_same hw _ _, fun hn => by omega⟩
    · rw [read_write_other hw hx]
      exact ⟨fun hin => ih.1 (by omega), fun hout => ih.2 (by omega)⟩

/-- All that a reset does to memory: free values in the regions of the list, the old bytes everywhere else. -/
theorem read_memAfterReset {m : Memory} (h : m.wf) (draw : Nat) (rs : List Range) (x : Nat) :
    ((∃ r ∈ rs, r.contains x) → (memAfterReset draw m rs).read x = Config.freeByte draw x) ∧
      ((∀ r ∈ rs, ¬ r.contains x) → (memAfterReset draw m rs).read x = m.read x) := by
  have keep : ∀ (rs : List Range) {m : Memory}, m.wf → m.read x = Config.freeByte draw x →
      (memAfterReset draw m rs).read x = Config.freeByte draw x := by
    intro rs
    induction rs with
    | nil => exact fun _ hr => hr
    | cons r rs ih =>
      intro m hm hr
      refine ih (freeRegion_wf hm draw r) ?_
      by_cases hx : r.contains x
      · exact (read_freeRegion hm draw r x).1 hx
      · rw [(read_freeRegion hm draw r x).2 hx, hr]
  induction rs generalizing m with
  | nil => exact ⟨fun ⟨_, hr, _⟩ => absurd hr List.not_mem_nil, fun _ => rfl⟩
  | cons r rs ih =>
    have hw := freeRegion_wf h draw r
    refine ⟨fun hx => ?_, fun hx => ?_⟩
    · by_cases hr : r.contains x
      · exact keep rs hw ((read_freeRegion h draw r x).1 hr)
      · obtain ⟨q, hq, hqx⟩ := hx
        rcases List.mem_cons.1 hq with rfl | hq
        · exact absurd hqx hr
        · exact (ih hw).1 ⟨q, hq, hqx⟩
    · exact ((ih hw).2 fun q hq => hx q (List.mem_cons_of_mem _ hq)).trans
        ((read_freeRegion h draw r x).2 (hx r (by simp)))

/-- A clipped region is the part of the region below `2^AW`. -/
theorem clip_contains {r : Range} {c : Config} {x : Nat} : (r.clip c).contains x ↔ r.contains x ∧ x < 2 ^ c.aw := by
  unfold Range.clip Range.contains
  dsimp only
  omega

/-- The destinations a reset frees for a command in flight: `[PD, PD+LEN)`, as far as it exists, of a region command, and nothing
of any other word. -/
theorem mem_destinationsOf {s : State} {f : Flight} {r : Range} :
    r ∈ s.destinationsOf f ↔
      r = (s.portAt f.port).rangeD.clip s.cfg ∧
        (decodeWord f.word = .ok .regionXor ∨ ∃ w acc, decodeWord f.word = .ok (.regionMultiply w acc)) := by
  unfold State.destinationsOf State.namedBy namedOf
  cases decodeWord f.word with
  | error e => simp
  | ok i => cases i <;> simp [namedRegions]

/-- The recorded check of `conflicts` is the rule's. -/
theorem conflicts_iff {f g : Footprint} : f.conflicts g = true ↔ Conflict f g := by
  unfold Footprint.conflicts Conflict
  simp only [Bool.or_eq_true, List.any_eq_true, meets_iff]
  constructor
  · rintro (⟨r, hr, q, hq, x, h1, h2⟩ | ⟨r, hr, q, hq, x, h1, h2⟩)
    · exact ⟨x, .inl ⟨⟨r, hr, h1⟩, q, hq, h2⟩⟩
    · exact ⟨x, .inr ⟨⟨r, hr, h1⟩, q, hq, h2⟩⟩
  · rintro ⟨x, ⟨⟨r, hr, h1⟩, q, hq, h2⟩ | ⟨⟨r, hr, h1⟩, q, hq, h2⟩⟩
    · exact .inl ⟨r, hr, q, hq, x, h1, h2⟩
    · exact .inr ⟨r, hr, q, hq, x, h1, h2⟩

/-- The destination region of `namedOf`, in the terms of the rules. -/
theorem destinationHas_iff {c : Word} {p : Port} {P : Nat → Prop} :
    DestinationHas c p P ↔ ∃ x, (namedOf c p).stores x ∧ P x := by
  unfold DestinationHas namedOf Footprint.stores
  cases decodeWord c with
  | error e => simp
  | ok i => cases i <;> simp [namedRegions]

/-- The source regions of `namedOf`, in the terms of the rules. -/
theorem sourceHas_iff {c : Word} {p : Port} {P : Nat → Prop} :
    SourceHas c p P ↔ ∃ x, (∃ r ∈ (namedOf c p).reads, r.contains x) ∧ P x := by
  unfold SourceHas namedOf
  cases decodeWord c with
  | error e => simp
  | ok i => cases i <;> simp [namedRegions]

/-- The regions of a command conflict with accesses exactly when these access its destination region or write a source region. -/
theorem namedOf_conflict_iff {c : Word} {p : Port} {b : Footprint} :
    Conflict (namedOf c p) b ↔ DestinationHas c p b.accesses ∨ SourceHas c p b.stores := by
  rw [destinationHas_iff, sourceHas_iff]
  unfold Conflict Footprint.accesses Footprint.stores
  constructor
  · rintro ⟨x, ⟨h1, h2⟩ | ⟨h1, q, hq, hx⟩⟩
    · exact .inl ⟨x, h1, h2⟩
    · rcases List.mem_append.1 hq with hq | hq
      · exact .inr ⟨x, ⟨q, hq, hx⟩, h1⟩
      · obtain ⟨r, hr, hrx⟩ := h1
        exact .inl ⟨x, ⟨q, hq, hx⟩, r, List.mem_append.2 (.inr hr), hrx⟩
  · rintro (⟨x, h1, h2⟩ | ⟨x, ⟨q, hq, hx⟩, h⟩)
    · exact ⟨x, .inl ⟨h1, h2⟩⟩
    · exact ⟨x, .inr ⟨h, q, List.mem_append.2 (.inl hq), hx⟩⟩

theorem conflict_comm {f g : Footprint} : Conflict f g ↔ Conflict g f :=
  exists_congr fun _ => or_comm

/-- The machine's test for a race of two commands is the rules'. -/
theorem races_iff {s : State} {c : Word} : s.races c = true ↔ ∃ g ∈ s.inFlight, g.Races s c := by
  unfold State.races
  rw [List.any_eq_true]
  refine exists_congr fun g => and_congr_right fun _ => ?_
  have hd : ((s.namedBy g).writes.any fun r => (namedOf c s.port).writes.any r.meets) = true ↔
      g.destinationHas s fun x => DestinationHas c s.port fun y => y = x := by
    unfold Flight.destinationHas
    simp only [List.any_eq_true, meets_iff, destinationHas_iff, Footprint.stores, State.namedBy]
    constructor
    · rintro ⟨r, hr, q, hq, x, h1, h2⟩
      exact ⟨x, ⟨r, hr, h1⟩, x, ⟨q, hq, h2⟩, rfl⟩
    · rintro ⟨x, ⟨r, hr, h1⟩, y, ⟨q, hq, h2⟩, rfl⟩
      exact ⟨r, hr, q, hq, y, h1, h2⟩
  unfold commandsRace
  rw [Bool.or_eq_true, Bool.or_eq_true, conflicts_iff, conflicts_iff, hd, conflict_comm (f := g.touches)]
  unfold State.namedBy
  rw [namedOf_conflict_iff, namedOf_conflict_iff]
  unfold Flight.Races
  rw [or_assoc, or_assoc, or_assoc]
  exact Iff.rfl

/-- A host access conflicts with a command in flight exactly when it conflicts with the regions the command has by its operands. -/
theorem hostRaces_iff {s : State} {f : Footprint} : s.hostRaces f = true ↔ ∃ g ∈ s.inFlight, Conflict (s.namedBy g) f := by
  simp only [State.hostRaces, List.any_eq_true, conflicts_iff]

/-- A host access to a region is not stopped for the region's sake exactly when the host may access it. -/
theorem hostRegionOk_iff {c : Config} {r : Range} :
    HostRegionOk c r ↔ r.inSpace c = true ∧ r.coversDevice c = false := by
  unfold HostRegionOk Range.inSpace Range.coversDevice Range.contains
  rw [decide_eq_true_eq, List.any_eq_false]
  refine and_congr_right fun _ => ⟨fun h i hi => ?_, fun h x hx => ?_⟩
  · have := h (r.base + i) ⟨by omega, by have := List.mem_range.1 hi; omega⟩
    simpa using this
  · have := h (x - r.base) (List.mem_range.2 (by omega))
    rw [show r.base + (x - r.base) = x by omega] at this
    simpa using this

/-- All that the beginning of a command can do: it stops for a port that does not exist, a race or what stops the command itself,
or the command is in flight. -/
theorem startOn_cases (p : Nat) (c : Word) (s : State) :
    (s.ports.length ≤ p ∧ startOn p c s = .refused .noSuchPort) ∨
      (State.races { s with cur := p } c = true ∧ startOn p c s = .refused .race) ∨
      (∃ r, runWord c { s with cur := p } = .fault r ∧ startOn p c s = .fault r) ∨
      (∃ r, runWord c { s with cur := p } = .refused r ∧ startOn p c s = .refused r) ∨
      (p < s.ports.length ∧ State.races { s with cur := p } c = false ∧
        (∃ t, runWord c { s with cur := p } = .next t) ∧
        startOn p c s = .next { s with
          inFlight := s.inFlight ++ [{ port := p, word := c, touches := touches c { s with cur := p } }] }) := by
  by_cases hp : s.ports.length ≤ p
  · exact .inl ⟨hp, by simp [startOn, hp]⟩
  · cases hr : State.races { s with cur := p } c with
    | true => exact .inr (.inl ⟨rfl, by simp [startOn, hp, hr]⟩)
    | false =>
      cases hw : runWord c { s with cur := p } with
      | next t => exact .inr (.inr (.inr (.inr ⟨Nat.lt_of_not_le hp, rfl, ⟨t, rfl⟩, by simp [startOn, hp, hr, hw]⟩)))
      | fault r => exact .inr (.inr (.inl ⟨r, rfl, by simp [startOn, hp, hr, hw]⟩))
      | refused r => exact .inr (.inr (.inr (.inl ⟨r, rfl, by simp [startOn, hp, hr, hw]⟩)))

/-- All that a host access to memory can do: it stops for one of three reasons, or it is done. -/
theorem hostAccess_cases (r : Range) (f : Footprint) (s done : State) :
    (r.inSpace s.cfg = false ∧ hostAccess r f s done = .fault .noSuchAddress) ∨
      (r.coversDevice s.cfg = true ∧ hostAccess r f s done = .refused .hostReachesDevice) ∨
      (s.hostRaces f = true ∧ hostAccess r f s done = .refused .race) ∨
      (r.inSpace s.cfg = true ∧ r.coversDevice s.cfg = false ∧ s.hostRaces f = false ∧ hostAccess r f s done = .next done) := by
  unfold hostAccess
  cases r.inSpace s.cfg <;> cases r.coversDevice s.cfg <;> cases s.hostRaces f <;> simp

/-- The state that differs only in `STATUS.ERR` is what raising or completing leaves. -/
theorem setErr_eq_onlyErr (s : State) (e : ErrCode) : s.setErr e = s.onlyErr e := rfl

/-- All that `region_xor` can do (42_region_ops.md R140, R141): it is refused, or the positions are written and `STATUS.ERR` is
cleared. -/
theorem execRegionXor_cases (s : State) :
    (∃ r, xorProblem s.cfg s.port = some r ∧ execRegionXor s = .refused r) ∨
      (xorProblem s.cfg s.port = none ∧ execRegionXor s = .next
        { s.onlyErr .none with
          mem := xorPositions s.port.pa.toNat s.port.pb.toNat s.port.pd.toNat s.mem (List.range s.port.len.toNat) }) := by
  unfold execRegionXor
  cases h : xorProblem s.cfg s.port with
  | some r => exact .inl ⟨r, rfl, rfl⟩
  | none => exact .inr ⟨rfl, rfl⟩

/-- `get_tables(w)` touches neither the ports nor memory, nor anything else but the tables. -/
theorem getTables_frame {s t : State} {w : Width} {ts : TableSet} (h : s.getTables w = some (ts, t)) :
    t = { s with tables := t.tables } := by
  rcases getTables_cases h with ⟨-, rfl⟩ | ⟨-, -, -, rfl⟩ <;> rfl

end Sys2Proof.Machine
end

