-- ==== Sys2Proof/Tests/Slice0.lean ====
section
/-! SUPPORT. The model's own tests: the smoke test of WellFormed, words decoded from 30_encoding.md R84 and 95_test_vectors.md
section 2.9, one or two vectors of 95_test_vectors.md for each command, and for every statement with premises a concrete state
that meets them. Expected values come from the spec; the section is named at each test. -/

namespace Sys2Proof.Tests

/-! One thread is enough for these small evaluations; many at once reserve more stack than the checker has memory. -/
set_option Elab.async false

open Sys2Proof Sys2Proof.Machine

/-! ### Helpers -/

/-- A state with one port, the default parameters and nothing built. -/
def stateOf (p : Port) (cells : List Host.Cell) : State where
  cfg := Config.default
  ports := [p]
  tables := Tables.unbuilt
  mem := { cells := cells }
  inFlight := []
  cur := 0
  host := []
  seen := []
  draws := 1

/-- A port with the given element operands. -/
def operands (a b : Word) : Port :=
  { err := .none, ea := a, eb := b, er := 0x55#32, pa := 0#64, pb := 0#64, pd := 0#64, len := 0#64 }

/-- A port with the given constant and regions. -/
def regions (c : Word) (a b d n : Addr) : Port :=
  { err := .none, ea := c, eb := 0#32, er := 0x55#32, pa := a, pb := b, pd := d, len := n }

/-- The table set of width 8 with the default parameters. -/
def tables8 : Tables := { t8 := some { poly := 0x11D, gen := 2 }, t16 := none, t32 := none }

/-- What a reading of the next state says, if there is one. -/
def after {α : Type} (o : Out) (f : State → α) : Option α :=
  match o with
  | .next t => some (f t)
  | .fault _ => none
  | .refused _ => none

/-- `ER` and `STATUS` of the executing port. -/
def result (s : State) : Word × Word := (s.port.er, s.statusWord s.port.err)

/-- `STATUS` of the executing port and `n` bytes of memory. -/
def stored (a n : Nat) (s : State) : Word × List Byte := (s.statusWord s.port.err, s.mem.readBytes a n)

/-- An outcome that can be read is a next state. -/
theorem next_of_after {o : Out} (h : after o (fun _ => true) = some true) : ∃ t, o = .next t := by
  cases o with
  | next t => exact ⟨t, rfl⟩
  | fault r => cases h
  | refused r => cases h

/-- A reading of the next state, with the state it was read from. -/
theorem next_with {α : Type} {o : Out} {f : State → α} {v : α} (h : after o f = some v) : ∃ t, o = .next t ∧ f t = v := by
  cases o with
  | next t => exact ⟨t, rfl, Option.some.inj h⟩
  | fault r => cases h
  | refused r => cases h

/-- States of this shape are well formed when their memory is. -/
theorem stateOf_wf (p : Port) (cells : List Host.Cell) (h : Memory.wf { cells := cells })
    (hs : ∀ c ∈ cells, c.1 < 2 ^ 64) : (stateOf p cells).Wf where
  legal := show Config.default.Legal by decide
  ports := rfl
  cur := Nat.zero_lt_one
  regs := fun q _ => ⟨q.pa.isLt, q.pb.isLt, q.pd.isLt, q.len.isLt⟩
  mem := h
  space := hs
  tables := by intro w ts hw; cases w <;> cases hw
  flights := by intro f hf; cases hf
  oneEach := List.Pairwise.nil

theorem default8_builds : buildOk .w8 (Config.default.poly .w8) (Config.default.gen .w8) = true := by decide +kernel
theorem default16_builds : buildOk .w16 (Config.default.poly .w16) (Config.default.gen .w16) = true := by decide +kernel

/-- The same with width 8 built. -/
theorem stateOf8_wf (p : Port) (cells : List Host.Cell) (h : Memory.wf { cells := cells })
    (hs : ∀ c ∈ cells, c.1 < 2 ^ 64) : State.Wf { stateOf p cells with tables := tables8 } :=
  { stateOf_wf p cells h hs with
    tables := by
      intro w ts hw
      cases w
      · cases hw; exact ⟨rfl, default8_builds⟩
      · cases hw
      · cases hw }

/-- The parameters of 95_test_vectors.md program P7: an invalid pair for width 8. -/
def invalid8 : Config := { Config.default with poly8 := 0x11B }

/-- The default map makes every region below the top valid. -/
theorem default_regionOk (acc : Access) (b n : Nat)
    (hb : b + n ≤ 2 ^ 64) : RegionOk Config.default acc { base := b, len := n } := by
  refine ⟨hb, fun x hx => ⟨.readWrite, ?_, by cases acc <;> rfl⟩⟩
  have hx' : x < 2 ^ 64 := by have := hx.2; simp only at this; omega
  have hd : decide (0 ≤ x ∧ x < 0 + 2 ^ 64) = true := by simp only [decide_eq_true_eq]; omega
  show (List.find? (fun e : MapEntry => decide (e.base ≤ x ∧ x < e.base + e.size))
    [{ base := 0, size := 2 ^ 64, kind := .readWrite }]).map MapEntry.kind = some .readWrite
  rw [List.find?_cons_of_pos (by exact hd)]
  rfl

/-! ### WellFormed: each check refuses an ill-formed command -/

theorem test_wf_refuses_initField : ¬ (Instr.initField .unsupported).WellFormed := by decide
theorem test_wf_refuses_multiply : ¬ (Instr.multiply .unsupported).WellFormed := by decide
theorem test_wf_refuses_divide : ¬ (Instr.divide .unsupported).WellFormed := by decide
theorem test_wf_refuses_inverse : ¬ (Instr.inverse .unsupported).WellFormed := by decide
theorem test_wf_refuses_regionMultiply : ¬ (Instr.regionMultiply .unsupported true).WellFormed := by decide
theorem test_wf_accepts_regionXor : Instr.regionXor.WellFormed := by decide

/-! ### Decoding (30_encoding.md R81 to R84; 95_test_vectors.md section 2.9) -/

theorem test_decode_initField : decodeWord 0b00000000000000000000000000100001#32 = .ok (.initField (.supported .w32)) := by
  decide
theorem test_decode_multiply : decodeWord 0b00000000000000000000000000000010#32 = .ok (.multiply (.supported .w8)) := by decide
theorem test_decode_divide : decodeWord 0b00000000000000000000000000100011#32 = .ok (.divide (.supported .w32)) := by decide
theorem test_decode_inverse : decodeWord 0b00000000000000000000000000010100#32 = .ok (.inverse (.supported .w16)) := by decide
theorem test_decode_regionXor : decodeWord 0b00000000000000000000000000000101#32 = .ok .regionXor := by decide
theorem test_decode_regionMultiply :
    decodeWord 0b00000000000000000000000000000110#32 = .ok (.regionMultiply (.supported .w8) false) := by decide
theorem test_decode_regionMultiply_acc :
    decodeWord 0b00000000000000000000000001010110#32 = .ok (.regionMultiply (.supported .w16) true) := by decide
theorem test_decode_unsupported : decodeWord 0x00000076#32 = .ok (.regionMultiply .unsupported true) := by decide
theorem test_decode_op0 : decodeWord 0x00000000#32 = .error .reservedOp := by decide
theorem test_decode_op7 : decodeWord 0x00000007#32 = .error .reservedOp := by decide
theorem test_decode_bit7 : decodeWord 0x00000082#32 = .error .reservedBits := by decide
theorem test_decode_bit31 : decodeWord 0x80000002#32 = .error .reservedBits := by decide
theorem test_decode_acc_on_multiply : decodeWord 0x00000042#32 = .error .accNotAllowed := by decide
theorem test_decode_acc_before_width : decodeWord 0x00000072#32 = .error .accNotAllowed := by decide
theorem test_decode_width_on_regionXor : decodeWord 0x00000035#32 = .error .widthOnRegionXor := by decide
theorem test_encode_regionMultiply32_acc : encode (.regionMultiply (.supported .w32) true) = 0x66#32 := by decide

/-! ### Field arithmetic (95_test_vectors.md sections 2.1, 2.2, 2.8) -/

theorem test_build_accepts_0x11B_3 : buildOk .w8 0x11B 3 = true := by decide +kernel
theorem test_build_refuses_0x11B_2 : buildOk .w8 0x11B 2 = false := by decide +kernel
theorem test_build_refuses_degree : buildOk .w8 0x21D 2 = false := by decide +kernel
theorem test_walk_refuses_0x101 : buildWalk .w8 0x101 2 = none := by decide +kernel
theorem test_antilog8 : TableSet.antilog { poly := 0x11D, gen := 2 } .w8 8 = (0x1D : Elem .w8) := by decide +kernel
theorem test_log8 : TableSet.log { poly := 0x11D, gen := 2 } .w8 3#8 = 25 := by decide +kernel
theorem test_ppow32 : fpow 0x100400007 2#32 2147483648 = 0x00010803#32 := by decide +kernel
theorem test_split16 : TableSet.split { poly := 0x1100B, gen := 2 } .w16 0x1234#16 1 0x12#8 = (0x438A : Elem .w16) := by decide +kernel

/-! ### Commands -/

/-- Section 2.4 and R110: word `0x01` after reset. -/
theorem test_initField : after (exec (.initField (.supported .w8)) (stateOf (operands 0 0) [])) result =
    some (0x55#32, 0x100#32) := by decide +kernel
/-- Section 2.10: an invalid pair. -/
theorem test_initField_fails :
    after (exec (.initField (.supported .w8)) { stateOf (operands 0 0) [] with cfg := invalid8 }) result =
      some (0x55#32, 0x001#32) := by decide +kernel
/-- Section 2.3: the exponent sum wraps. -/
theorem test_multiply8 : after (exec (.multiply (.supported .w8)) (stateOf (operands 0xFF 0xFF) [])) result =
    some (0xE2#32, 0x100#32) := by decide +kernel
/-- Section 2.10: no BadOperand at w = 32. -/
theorem test_multiply32 :
    after (exec (.multiply (.supported .w32)) (stateOf (operands 0xFFFFFFFF 0xFFFFFFFF) [])) result =
      some (0xAAD54FFE#32, 0x400#32) := by decide +kernel
/-- Section 2.4. -/
theorem test_divide16 : after (exec (.divide (.supported .w16)) (stateOf (operands 0x1234 0x5678) [])) result =
    some (0x18F2#32, 0x200#32) := by decide +kernel
/-- Section 2.10: BadOperand comes before DivisionByZero. -/
theorem test_divide_order : after (exec (.divide (.supported .w8)) (stateOf (operands 0x100 0) [])) result =
    some (0x55#32, 0x005#32) := by decide +kernel
/-- Section 2.5. -/
theorem test_inverse32 : after (exec (.inverse (.supported .w32)) (stateOf (operands 0x12345678 0) [])) result =
    some (0x7909FCAF#32, 0x400#32) := by decide +kernel
/-- Section 2.10: `EB` is not checked, and `ER` keeps its value. -/
theorem test_inverse_zero : after (exec (.inverse (.supported .w8)) (stateOf (operands 0 0xFFFFFFFF) [])) result =
    some (0x55#32, 0x002#32) := by decide +kernel
/-- Section 2.6, X1; the byte after the destination is 0x55 and stays. -/
theorem test_regionXor :
    after (exec .regionXor (stateOf (regions 0 0x1000 0x1010 0x1020 3)
      [(0x1000, 0xFF), (0x1002, 0x0F), (0x1010, 0x0F), (0x1011, 0xFF), (0x1012, 0xF0), (0x1020, 0x55), (0x1023, 0x55)]))
      (stored 0x1020 4) = some (0x000#32, [0xF0, 0xFF, 0xFF, 0x55]) := by decide +kernel
/-- Section 2.6, X9. -/
theorem test_regionXor_overlap :
    (match exec .regionXor (stateOf (regions 0 0x100 0x200 0x101 4) []) with
      | .refused .partialOverlap => true
      | _ => false) = true := by decide +kernel
/-- Section 2.7, M10: accumulate at w = 16, little. -/
theorem test_regionMultiply16_acc :
    after (exec (.regionMultiply (.supported .w16) true) (stateOf (regions 0x1234 0x10 0 0x20 12)
      [(0x10, 0x01), (0x12, 0x02), (0x14, 0x34), (0x15, 0x12), (0x16, 0xFF), (0x17, 0xFF), (0x1B, 0x80),
       (0x20, 0x11), (0x21, 0x22), (0x22, 0x33), (0x23, 0x44), (0x24, 0x55), (0x25, 0x66), (0x26, 0x77), (0x27, 0x88),
       (0x28, 0x99), (0x29, 0xAA), (0x2A, 0xBB), (0x2B, 0xCC)])) (stored 0x20 12) =
      some (0x200#32, [0x25, 0x30, 0x5B, 0x60, 0xD2, 0x38, 0x7F, 0xDD, 0x99, 0xAA, 0x2D, 0xBA]) := by decide +kernel
/-- Section 2.7, M13: the byte order `big`. -/
theorem test_regionMultiply_big :
    after (exec (.regionMultiply (.supported .w16) false)
      { stateOf (regions 0x0002 0x10 0 0x20 2) [(0x10, 0x80), (0x11, 0x01)] with
        cfg := { Config.default with elemEndian := .big } }) (stored 0x20 2) = some (0x200#32, [0x10, 0x09]) := by
  decide +kernel

/-! ### Steps -/

/-- After reset, the word `0x22` placed by `withFetchWord` is a command that completes (60_exceptions.md R196). -/
theorem test_step_from_reset : (after (step (State.reset.withFetchWord 32 0x22)) fun _ => true) = some true := by decide +kernel
/-- 95_test_vectors.md P5: `wr CMD, 0x00000000` leaves `STATUS = 0x104`. -/
theorem test_step_illegal :
    after (step { stateOf (operands 5 0) [] with tables := tables8, host := [.wr 0 0 0] }) result =
      some (0x55#32, 0x104#32) := by decide +kernel

/-! ### Witnesses: a concrete state that meets the premises of each statement, boundary values where clauses meet -/

/-- Cells of the witness states. -/
def cells : List Host.Cell := [(0x100, 1), (0x101, 2), (0x110, 0x10)]

theorem cells_wf : Memory.wf { cells := cells } := by decide
theorem cells_space : ∀ c ∈ cells, c.1 < 2 ^ 64 := by decide

/-- The element states `stateOf (operands a b) cells` are well formed. -/
theorem element_wf (a b : Word) : (stateOf (operands a b) cells).Wf := stateOf_wf _ _ cells_wf cells_space

/-- The region states are well formed. -/
theorem region_wf (c : Word) (a b d n : Addr) : (stateOf (regions c a b d n) cells).Wf := stateOf_wf _ _ cells_wf cells_space

/-- A state with two ports and a `region_xor` in flight on each: port 0 from 0x100, 0x110 to 0x120, port 1 from 0x100, 0x110 to
0x130. -/
def twoPorts : State where
  cfg := { Config.default with nports := 2 }
  ports := [regions 2 0x100 0x110 0x120 4, regions 2 0x100 0x110 0x130 4]
  tables := Tables.unbuilt
  mem := { cells := cells }
  inFlight :=
    [{ port := 0, word := 0x5, touches := { reads := [⟨0x100, 4⟩, ⟨0x110, 4⟩], writes := [⟨0x120, 4⟩] } },
     { port := 1, word := 0x5, touches := { reads := [⟨0x100, 4⟩, ⟨0x110, 4⟩], writes := [⟨0x130, 4⟩] } }]
  cur := 0
  host := []
  seen := []
  draws := 1

theorem twoPorts_wf : twoPorts.Wf where
  legal := by decide
  ports := rfl
  cur := by decide
  regs := fun q _ => ⟨q.pa.isLt, q.pb.isLt, q.pd.isLt, q.len.isLt⟩
  mem := cells_wf
  space := cells_space
  tables := by intro w ts hw; cases w <;> cases hw
  flights := by decide
  oneEach := by decide

theorem witness_StepRunsTheCommandWritten :
    (∃ i, decodeWord 0x02#32 = .ok i) ∧ (∃ r, decodeWord 0x07#32 = .error r) ∧
    ∃ s : State, s.host = .wr 0 0 (0x02#32).toNat :: [] ∧ 0 < s.ports.length ∧ (∀ f ∈ s.inFlight, f.port ≠ 0) ∧
      ∀ f ∈ s.inFlight, ¬ f.Races { s with host := [], cur := 0 } 0x02#32 :=
  ⟨⟨_, test_decode_multiply⟩, ⟨_, test_decode_op7⟩, { stateOf (operands 3 7) cells with host := [.wr 0 0 2] }, rfl, by decide,
    fun _ h => absurd h List.not_mem_nil, fun _ h => absurd h List.not_mem_nil⟩

/-- The highest legal word. -/
theorem witness_PlacedWordIsRunNext : 0 < State.reset.ports.length ∧ 0x66 < 2 ^ 32 ∧
    decodeTableWord 32 0x66 = some (.regionMultiply (.supported .w32) true) := by decide

theorem witness_IdleWithoutHostAction :
    (stateOf (operands 3 7) cells).host = [] ∧ (stateOf (operands 3 7) cells).inFlight = [] ∧
    twoPorts.host = [] ∧ ∃ f fs, twoPorts.inFlight = f :: fs := ⟨rfl, rfl, rfl, _, _, rfl⟩

theorem witness_IllegalWords : IllegalWord 0x07#32 ∧ IllegalWord 0x80#32 ∧ IllegalWord 0x45#32 ∧ IllegalWord 0x15#32 ∧
    ¬ IllegalWord 0x06#32 ∧ ¬ IllegalWord 0x76#32 ∧ (0x76#32).toNat / 16 % 4 = 3 := by
  unfold IllegalWord; decide

theorem witness_InitFieldBuildsTheTables : (stateOf (operands 3 7) cells).Wf ∧
    buildOk .w16 ((stateOf (operands 3 7) cells).cfg.poly .w16) ((stateOf (operands 3 7) cells).cfg.gen .w16) = true :=
  ⟨element_wf 3 7, default16_builds⟩

/-- All clauses at once, at the largest elements of width 8. -/
theorem witness_FailedBuildRaisesConfigurationError :
    let s := { stateOf (operands 0xFF 0xFF) cells with cfg := invalid8 }
    s.built .w8 = false ∧ buildOk .w8 (s.cfg.poly .w8) (s.cfg.gen .w8) = false ∧ s.port.ea.toNat < 2 ^ Width.w8.bits ∧
      s.port.eb.toNat < 2 ^ Width.w8.bits ∧ s.port.eb ≠ 0#32 ∧ s.port.ea ≠ 0#32 ∧
      s.port.len.toNat % Width.w8.bytes = 0 := by decide +kernel

/-- A step from a state with width 8 built. -/
theorem witness_TablesLastUntilReset :
    let s := { stateOf (operands 3 7) cells with tables := tables8, host := [.wr 0 0 0x11] }
    (∃ t, step s = .next t) ∧ s.tables.get .w8 = some { poly := 0x11D, gen := 2 } ∧ ∀ rest, s.host ≠ .reset :: rest :=
  ⟨⟨_, rfl⟩, rfl, fun _ h => by cases h⟩

theorem witness_OrderTestIsValidity : (0x11D).testBit Width.w8.bits = true ∧ 0x11D < 2 ^ (Width.w8.bits + 1) ∧
    2 < 2 ^ Width.w8.bits := by decide

theorem witness_BuiltTablesAreInverse : State.Wf { stateOf (operands 3 7) cells with tables := tables8 } ∧
    tables8.get .w8 = some { poly := 0x11D, gen := 2 } :=
  ⟨stateOf8_wf _ _ cells_wf cells_space, rfl⟩

/-- TableFormulasComputeTheProduct and AllMethodsAgree have the same premises, and nonzero elements exist. -/
theorem witness_TableFormulas : State.Wf { stateOf (operands 3 7) cells with tables := tables8 } ∧
    tables8.get .w8 = some { poly := 0x11D, gen := 2 } ∧ (1#8 : Elem .w8) ≠ 0#8 :=
  ⟨stateOf8_wf _ _ cells_wf cells_space, rfl, by decide⟩

theorem witness_BuildYieldsAField : buildOk .w8 0x11D 2 = true := default8_builds

/-- Multiply: each clause at a boundary: 0x100 does not fit 8 bits, 0xFF does, with a build that fails and one that succeeds. -/
theorem witness_Multiply :
    (stateOf (operands 0x100 0xFF) cells).Wf ∧ 2 ^ Width.w8.bits ≤ (operands 0x100 0xFF).ea.toNat ∧
    (stateOf (operands 0xFF 0xFF) cells).Wf ∧ (operands 0xFF 0xFF).ea.toNat < 2 ^ Width.w8.bits ∧
    (operands 0xFF 0xFF).eb.toNat < 2 ^ Width.w8.bits ∧ buildOk .w8 (Config.default.poly .w8) (Config.default.gen .w8) = true :=
  ⟨element_wf _ _, by decide, element_wf _ _, by decide, by decide, default8_builds⟩

/-- A well-formed state whose width 8 does not build. -/
theorem invalid_wf (a b : Word) : State.Wf { stateOf (operands a b) cells with cfg := invalid8 } :=
  { element_wf a b with tables := by intro w ts hw; cases w <;> cases hw }

theorem witness_Multiply_fails :
    State.Wf { stateOf (operands 0xFF 0xFF) cells with cfg := invalid8 } ∧
      buildOk .w8 (invalid8.poly .w8) (invalid8.gen .w8) = false := ⟨invalid_wf _ _, by decide +kernel⟩

/-- Divide: the operand 0x100 does not fit; `EB` at 0 and at 1, `EA` at 0. -/
theorem witness_Divide :
    2 ^ Width.w8.bits ≤ (operands 0 0x100).eb.toNat ∧ (stateOf (operands 0 0) cells).Wf ∧ (operands 0 0).eb = 0#32 ∧
    (stateOf (operands 0 1) cells).Wf ∧ (operands 0 1).eb ≠ 0#32 ∧ (operands 0 1).ea.toNat < 2 ^ Width.w8.bits ∧
    (operands 0 1).eb.toNat < 2 ^ Width.w8.bits ∧ buildOk .w8 (Config.default.poly .w8) (Config.default.gen .w8) = true :=
  ⟨by decide, element_wf _ _, rfl, element_wf _ _, by decide, by decide, by decide, default8_builds⟩

/-- Inverse: `EA` at 0x100, 0 and 1; `EB` does not fit and is not looked at. -/
theorem witness_Inverse :
    2 ^ Width.w8.bits ≤ (operands 0x100 0x100).ea.toNat ∧ (stateOf (operands 0 0x100) cells).Wf ∧
    (operands 0 0x100).ea = 0#32 ∧ (stateOf (operands 1 0x100) cells).Wf ∧ (operands 1 0x100).ea ≠ 0#32 ∧
    (operands 1 0x100).ea.toNat < 2 ^ Width.w8.bits ∧
    buildOk .w8 (Config.default.poly .w8) (Config.default.gen .w8) = true :=
  ⟨by decide, element_wf _ _, rfl, element_wf _ _, by decide, by decide, default8_builds⟩

theorem witness_WideOperand : 2 ^ Width.w16.bits ≤ (operands 0x10000 0xFFFF).ea.toNat ∧
    2 ^ Width.w16.bits ≤ (operands 0xFFFF 0x10000).eb.toNat := by decide

theorem witness_PartialElement :
    (regions 0xFFFF 0 0 0 3).ea.toNat < 2 ^ 16 ∧ (regions 0xFFFF 0 0 0 3).len.toNat % 2 = 1 ∧
    (regions 0 0 0 0 6).len.toNat % 4 ≠ 0 ∧
    (∃ t, exec (.regionMultiply (.supported .w8) false) (stateOf (regions 2 0x100 0 0x120 3) cells) = .next t) ∧
    ∃ t, exec .regionXor (stateOf (regions 2 0x100 0x110 0x120 3) cells) = .next t :=
  ⟨by decide, by decide, by decide, next_of_after (by decide +kernel), next_of_after (by decide +kernel)⟩

theorem witness_FieldLaws : buildOk .w8 0x11B 3 = true ∧ buildOk .w16 0x1100B 2 = true ∧ (1#8 : Elem .w8) ≠ 0#8 :=
  ⟨test_build_accepts_0x11B_3, default16_builds, by decide⟩

/-- `EA` at the largest element with `EB` 0, and at 0. -/
theorem witness_ZeroDivisor : (operands 0xFF 0).ea.toNat < 2 ^ Width.w8.bits ∧ (operands 0xFF 0).eb = 0#32 ∧
    (operands 0 0).ea = 0#32 := by decide

/-- An illegal word; a command with a first error; one without, which completes; one without, which is refused. -/
theorem witness_ChecksAreMadeInOrder :
    (stateOf (operands 0x100 0) cells).cur < (stateOf (operands 0x100 0) cells).ports.length ∧
    decodeWord 0x41#32 = .error .accNotAllowed ∧
    firstError (.divide (.supported .w8)) (stateOf (operands 0x100 0) cells) = some .badOperand ∧
    firstError (.divide (.supported .w8)) (stateOf (operands 0xFF 1) cells) = none ∧
    (∃ t, runWord 0x03#32 (stateOf (operands 0xFF 1) cells) = .next t) ∧
    firstError .regionXor (stateOf (regions 0 0x100 0x200 0x101 4) cells) = none ∧
    ∃ r, runWord 0x05#32 (stateOf (regions 0 0x100 0x200 0x101 4) cells) = .refused r :=
  ⟨Nat.zero_lt_one, by decide, by decide +kernel, by decide +kernel, next_of_after (by decide +kernel), rfl,
    ⟨.partialOverlap, by
      have h : xorProblem Config.default (regions 0 0x100 0x200 0x101 4) = some .partialOverlap := by decide +kernel
      show execRegionXor (stateOf (regions 0 0x100 0x200 0x101 4) cells) = _
      unfold execRegionXor
      rw [show xorProblem (stateOf (regions 0 0x100 0x200 0x101 4) cells).cfg
        (stateOf (regions 0 0x100 0x200 0x101 4) cells).port = some .partialOverlap from h]⟩⟩

theorem witness_ErrorsHaveNoOtherEffect : (stateOf (operands 5 0) cells).cur < (stateOf (operands 5 0) cells).ports.length ∧
    ∃ t, runWord 0x03#32 (stateOf (operands 5 0) cells) = .next t ∧ t.port.err = .divisionByZero :=
  ⟨Nat.zero_lt_one, next_with (by decide +kernel)⟩

/-- A command that changes `ER`, with a result and no error. -/
theorem witness_OnlyElementCommandsWriteER :
    decodeWord 0x02#32 = .ok (.multiply (.supported .w8)) ∧
    ∃ t, runWord 0x02#32 (stateOf (operands 0xFF 0xFF) cells) = .next t ∧ (t.port.er, t.port.err) = (0xE2#32, .none) :=
  ⟨by decide, next_with (by decide +kernel)⟩

theorem witness_CommandsChangeOnly : ∃ t, runWord 0x05#32 (stateOf (regions 0 0x100 0x110 0x120 4) cells) = .next t :=
  next_of_after (by decide +kernel)

/-- The byte just past the destination of a region command, and any byte with an element command. -/
theorem witness_CommandsWriteOnlyTheirDestination :
    (stateOf (regions 0 0x100 0x110 0x120 4) cells).mem.wf ∧
    (∃ t, runWord 0x05#32 (stateOf (regions 0 0x100 0x110 0x120 4) cells) = .next t) ∧
    ¬ (stateOf (regions 0 0x100 0x110 0x120 4) cells).port.rangeD.contains 0x124 ∧
    (∃ t, runWord 0x02#32 (stateOf (operands 3 7) cells) = .next t) ∧ decodeWord 0x02#32 ≠ .ok .regionXor ∧
    ∀ w acc, decodeWord 0x02#32 ≠ .ok (.regionMultiply w acc) :=
  ⟨cells_wf, next_of_after (by decide +kernel), by unfold Range.contains; decide, next_of_after (by decide +kernel), by decide,
    fun w acc h => by rw [test_decode_multiply] at h; cases h⟩

/-- Two well-formed states that differ in what is built. -/
theorem witness_ResultsDoNotDependOnWhatIsBuilt : (stateOf (operands 3 7) cells).Wf ∧
    State.Wf { stateOf (operands 3 7) cells with tables := tables8 } ∧
    ∃ t, exec (.multiply (.supported .w8)) (stateOf (operands 3 7) cells) = .next t :=
  ⟨element_wf _ _, stateOf8_wf _ _ cells_wf cells_space, next_of_after (by decide +kernel)⟩

/-- Valid regions: adjacent ones and a destination that is the first source; the last one ends at the top of the space. -/
theorem witness_RegionXor :
    (stateOf (regions 0 0x100 0x104 0x108 4) cells).Wf ∧ XorRegionsOk (stateOf (regions 0 0x100 0x104 0x108 4) cells) ∧
    XorRegionsOk (stateOf (regions 0 0x100 0x104 0x100 4) cells) ∧
    XorRegionsOk (stateOf (regions 0 0x100 0x104 0xFFFFFFFFFFFFFFFC 4) cells) :=
  ⟨region_wf _ _ _ _ _,
    ⟨default_regionOk _ _ _ (by decide +kernel), default_regionOk _ _ _ (by decide +kernel),
      default_regionOk _ _ _ (by decide +kernel), partlyOverlaps_eq_false.1 (by decide +kernel), partlyOverlaps_eq_false.1 (by decide +kernel)⟩,
    ⟨default_regionOk _ _ _ (by decide +kernel), default_regionOk _ _ _ (by decide +kernel),
      default_regionOk _ _ _ (by decide +kernel), partlyOverlaps_eq_false.1 (by decide +kernel), partlyOverlaps_eq_false.1 (by decide +kernel)⟩,
    ⟨default_regionOk _ _ _ (by decide +kernel), default_regionOk _ _ _ (by decide +kernel),
      default_regionOk _ _ _ (by decide +kernel), partlyOverlaps_eq_false.1 (by decide +kernel), partlyOverlaps_eq_false.1 (by decide +kernel)⟩⟩

/-- The order 1, 0 of two positions; the destination is a source, or next to it. -/
theorem witness_AnyOrder : Memory.wf { cells := cells } ∧ [1, 0].Perm (List.range 2) ∧
    NoPartialOverlap { base := 0x100, len := 2 } { base := 0x100, len := 2 } ∧
    NoPartialOverlap { base := 0x100, len := 2 } { base := 0x102, len := 2 } :=
  ⟨cells_wf, by decide +kernel, .inl rfl, partlyOverlaps_eq_false.1 (by decide +kernel)⟩

/-- The smallest partial overlap, and the shortest region that wraps. -/
theorem witness_RegionXorRefusedExactly :
    let s := stateOf (regions 0 0x100 0x200 0x101 2) cells
    (RegionOk s.cfg .reads s.port.rangeA ∧ RegionOk s.cfg .reads s.port.rangeB ∧ RegionOk s.cfg .writes s.port.rangeD ∧
      ¬ XorRegionsOk s) ∧
    2 ^ Config.default.aw < (regions 0 0xFFFFFFFFFFFFFFFF 0 0 2).pa.toNat + (regions 0 0xFFFFFFFFFFFFFFFF 0 0 2).len.toNat :=
  ⟨⟨default_regionOk _ _ _ (by decide +kernel), default_regionOk _ _ _ (by decide +kernel),
      default_regionOk _ _ _ (by decide +kernel), fun h => absurd (partlyOverlaps_eq_false.2 h.2.2.2.1) (by decide +kernel)⟩,
    by decide⟩

theorem witness_RegionXorIsSelfInverse :
    (stateOf (regions 0 0x100 0x110 0x120 2) cells).Wf ∧
    (∀ x, ¬ ((regions 0 0x100 0x110 0x120 2).rangeD.contains x ∧ (regions 0 0x100 0x110 0x120 2).rangeB.contains x)) ∧
    ∃ t, exec .regionXor (stateOf (regions 0 0x100 0x110 0x120 2) cells) = .next t ∧
      after (exec .regionXor { t with ports := t.ports.modify t.cur fun p => { p with pa := p.pd, pd := 0x130#64 } })
        (fun _ => true) = some true :=
  ⟨region_wf _ _ _ _ _, fun x h => by
      obtain ⟨⟨h1, -⟩, -, h2⟩ := h
      simp [regions, Port.rangeD, Port.rangeB] at h1 h2
      omega, next_with (by decide +kernel)⟩

/-- The premises of RegionMultiplyStoresTheProducts, ConstantOneCopies and ConstantZeroClearsTheDestination at the constants 0xFF,
1 and 0; with 0 the source wraps and is no matter. -/
theorem witness_RegionMultiply :
    (stateOf (regions 0xFF 0x100 0 0x120 4) cells).Wf ∧ (regions 0xFF 0x100 0 0x120 4).ea.toNat < 2 ^ Width.w8.bits ∧
    (regions 0xFF 0x100 0 0x120 4).len.toNat % Width.w16.bytes = 0 ∧
    MultiplyRegionsOk (stateOf (regions 0xFF 0x100 0 0x120 4) cells) true ∧
    MultiplyRegionsOk (stateOf (regions 1 0x100 0 0x100 4) cells) false ∧
    MultiplyRegionsOk (stateOf (regions 0 0xFFFFFFFFFFFFFFFF 0 0x120 4) cells) false ∧
    RegionOk Config.default .writes (regions 0 0xFFFFFFFFFFFFFFFF 0 0x120 4).rangeD :=
  ⟨region_wf _ _ _ _ _, by decide +kernel, by decide +kernel,
    .inr ⟨by decide +kernel, default_regionOk _ _ _ (by decide +kernel), default_regionOk _ _ _ (by decide +kernel),
      partlyOverlaps_eq_false.1 (by decide +kernel)⟩,
    .inr ⟨by decide +kernel, default_regionOk _ _ _ (by decide +kernel), default_regionOk _ _ _ (by decide +kernel), .inl rfl⟩,
    .inl ⟨rfl, default_regionOk _ _ _ (by decide +kernel)⟩, default_regionOk _ _ _ (by decide +kernel)⟩

/-- The other clauses of ConstantZeroClearsTheDestination: a length that is no multiple, and a build that fails. -/
theorem witness_ConstantZero_errors : (regions 0 0 0 0 3).len.toNat % Width.w16.bytes ≠ 0 ∧
    State.Wf { stateOf (operands 0 0) cells with cfg := invalid8 } ∧
    buildOk .w8 (invalid8.poly .w8) (invalid8.gen .w8) = false :=
  ⟨by decide +kernel, invalid_wf _ _, by decide +kernel⟩

theorem witness_RegionMultiplyRefusedExactly :
    firstError (.regionMultiply (.supported .w16) true) (stateOf (regions 0xFFFF 0x100 0 0x101 2) cells) = none := by
  decide +kernel

theorem witness_EmptyRegion : (stateOf (regions 0xFF 0xFFFFFFFFFFFFFFFF 0 1 0) cells).Wf ∧
    (stateOf (regions 0xFF 0xFFFFFFFFFFFFFFFF 0 1 0) cells).port.len = 0#64 ∧
    buildOk .w8 (Config.default.poly .w8) (Config.default.gen .w8) = true ∧
    (regions 0xFF 0xFFFFFFFFFFFFFFFF 0 1 0).ea.toNat < 2 ^ Width.w8.bits :=
  ⟨region_wf _ _ _ _ _, rfl, default8_builds, by decide⟩

/-- Reads of the first and the last register. -/
theorem witness_HostReadsRegisters (n : Nat) (hn : n = 0 ∨ n = 8) :
    let s := { stateOf (operands 3 7) cells with host := [.rd 0 n] }
    s.host = .rd 0 n :: [] ∧ 0 < s.ports.length ∧ (∀ f ∈ s.inFlight, f.port ≠ 0) ∧ n ≤ 8 :=
  ⟨rfl, Nat.zero_lt_one, fun _ h => absurd h List.not_mem_nil, by omega⟩

/-- The largest value of a 32-bit and of an `AW`-bit register. -/
theorem witness_HostWritesRegisters :
    Config.default.Legal ∧ 2 ^ 32 - 1 < 2 ^ (if 4 ≤ 4 then 32 else Config.default.aw) ∧
    2 ^ 64 - 1 < 2 ^ (if 5 ≤ 4 then 32 else Config.default.aw) ∧
    ∃ s : State, s.cfg = Config.default ∧ s.host = .wr 0 5 (2 ^ 64 - 1) :: [] ∧ 0 < s.ports.length ∧
      ∀ f ∈ s.inFlight, f.port ≠ 0 :=
  ⟨by decide +kernel, by decide +kernel, by decide +kernel, { stateOf (operands 3 7) cells with host := [.wr 0 5 (2 ^ 64 - 1)] }, rfl, rfl,
    Nat.zero_lt_one, fun _ h => absurd h List.not_mem_nil⟩

/-- Register 9, and the smallest values too wide for the registers 4 and 5. -/
theorem witness_HostAccessesRefused : 9 ≤ 9 ∧ 2 ^ (if 4 ≤ 4 then 32 else Config.default.aw) ≤ 2 ^ 32 ∧
    2 ^ (if 5 ≤ 4 then 32 else Config.default.aw) ≤ 2 ^ 64 ∧ 0 < (stateOf (operands 3 7) cells).ports.length ∧
    ∀ f ∈ (stateOf (operands 3 7) cells).inFlight, f.port ≠ 0 :=
  ⟨by decide +kernel, by decide +kernel, by decide +kernel, Nat.zero_lt_one, fun _ h => absurd h List.not_mem_nil⟩

/-- A store of two bytes at the top of the address space, and its load. -/
theorem witness_HostLoadsWhatItStored :
    let s := { stateOf (operands 3 7) cells with host := [.st (2 ^ 64 - 2) [1, 2], .ld (2 ^ 64 - 2) 2] }
    s.mem.wf ∧ ∃ t, step s = .next t ∧ after (step t) (fun _ => true) = some true :=
  ⟨cells_wf, next_with (by decide +kernel)⟩

/-- A call at the boundary values 0xFF and 0; the call of 41_element_arithmetic.md R121's example (3 times 7 is 9) reads `STATUS`
with `BUILT8 = 1` and then the product. -/
theorem witness_MultiplyCallReturnsTheProduct :
    let s := { stateOf (operands 0 0) cells with host := (SourceCall.multiply (.supported .w8) 0xFF 0).expand 0 ++ [.reset] }
    s.inFlight = [] ∧ 0 < s.cfg.nports ∧ 0xFF < 2 ^ Width.w8.bits ∧ 0 < 2 ^ Width.w8.bits ∧
      after (runSteps 5 s) (fun _ => true) = some true := by decide +kernel
theorem test_multiply_call :
    after (runSteps 5 { stateOf (operands 0 0) [] with host := (SourceCall.multiply (.supported .w8) 3 7).expand 0 })
      State.seen = some [.register 0x09#64, .register 0x100#64] := by decide +kernel

theorem witness_AccessIsHeldUntilCompletion :
    let s := { twoPorts with host := [.rd 1 4] }
    s.host = .rd 1 4 :: [] ∧ (twoPorts.inFlight[1]) ∈ s.inFlight ∧ s.inFlight.Pairwise (fun f g => f.port ≠ g.port) ∧
      HostAction.rd 1 4 = .rd (twoPorts.inFlight[1]).port 4 := by decide

/-- A state with a command in flight on port 0 whose destination is that of port 1's `region_xor`. -/
def raceState : State :=
  { twoPorts with
    ports := [regions 2 0x100 0x110 0x120 4, regions 2 0x100 0x110 0x120 4]
    inFlight := [{ port := 0, word := 0x5, touches := { reads := [⟨0x100, 4⟩, ⟨0x110, 4⟩], writes := [⟨0x120, 4⟩] } }] }

/-- A `region_multiply.8.acc` with constant 0 in flight: it accesses neither its source at 0x110 nor its destination at 0x120. -/
def untouchedState : State :=
  { twoPorts with
    ports := [regions 0 0x110 0 0x120 4, regions 2 0x100 0x110 0x130 4]
    inFlight := [{ port := 0, word := 0x46, touches := { reads := [], writes := [] } }] }

/-- The same command in flight, and registers on port 1 with the same destination and constant 0. -/
def sharedState : State :=
  { untouchedState with ports := [regions 0 0x110 0 0x120 4, regions 0 0x100 0 0x123 4] }

/-- Conflicts with a command in the last byte of the destination, with a store in the last bytes of the destination and the source,
and with a load in the last byte of the destination; a store and a load just past the regions conflict with nothing. -/
theorem witness_RacesAreRefused :
    ((raceState.inFlight[0]) ∈ raceState.inFlight ∧ 1 < raceState.ports.length ∧ (∀ g ∈ raceState.inFlight, g.port ≠ 1) ∧
      (raceState.inFlight[0]).Races { raceState with host := [], cur := 1 } 0x5#32) ∧
    (1 < sharedState.ports.length ∧ (∀ g ∈ sharedState.inFlight, g.port ≠ 1) ∧
      (sharedState.inFlight[0]).Races { sharedState with host := [], cur := 1 } 0x46#32) ∧
    (untouchedState.inFlight[0]) ∈ untouchedState.inFlight ∧
    HostRegionOk untouchedState.cfg { base := 0x123, len := 1 } ∧
    (untouchedState.inFlight[0]).destinationHas untouchedState (Range.contains { base := 0x123, len := 1 }) ∧
    HostRegionOk untouchedState.cfg { base := 0x113, len := 1 } ∧
    (untouchedState.inFlight[0]).sourceHas untouchedState (Range.contains { base := 0x113, len := 1 }) ∧
    untouchedState.mem.wf ∧ HostRegionOk untouchedState.cfg { base := 0x124, len := 1 } ∧
    (∀ g ∈ untouchedState.inFlight, ¬ g.destinationHas untouchedState (Range.contains { base := 0x124, len := 1 }) ∧
      ¬ g.sourceHas untouchedState (Range.contains { base := 0x124, len := 1 })) ∧
    HostRegionOk Config.default { base := 2 ^ 64 - 1, len := 1 } ∧ (stateOf (operands 3 7) cells).inFlight = [] := by
  have hd : decodeWord 0x46#32 = .ok (.regionMultiply (.supported .w8) true) := by decide
  refine ⟨⟨by decide +kernel, by decide +kernel, by decide +kernel, ?_⟩, ⟨by decide, by decide, ?_⟩, by decide +kernel,
    hostRegionOk_iff.2 (by decide +kernel), ⟨.inr ⟨_, _, hd⟩, 0x123, by unfold Range.contains; decide⟩,
    hostRegionOk_iff.2 (by decide +kernel), .inr ⟨⟨_, _, hd⟩, 0x113, by unfold Range.contains; decide⟩, cells_wf,
    hostRegionOk_iff.2 (by decide +kernel), fun g hg => ?_, hostRegionOk_iff.2 (by decide +kernel), rfl⟩
  · obtain ⟨g, hg, hr⟩ := races_iff.1 (show State.races { raceState with host := [], cur := 1 } 0x5#32 = true by decide +kernel)
    rcases List.mem_singleton.1 hg with rfl
    exact hr
  · obtain ⟨g, hg, hr⟩ := races_iff.1 (show State.races { sharedState with host := [], cur := 1 } 0x46#32 = true by decide +kernel)
    rcases List.mem_singleton.1 hg with rfl
    exact hr
  rcases List.mem_singleton.1 hg with rfl
  constructor
  · rintro ⟨-, x, ⟨-, h⟩, h', -⟩
    have h : x < 0x124 := h
    have h' : 0x124 ≤ x := h'
    omega
  · rintro (⟨h, -⟩ | ⟨-, x, ⟨-, h⟩, h', -⟩)
    · exact absurd (hd.symm.trans h) (by decide)
    · have h : x < 0x114 := h
      have h' : 0x124 ≤ x := h'
      omega

/-- The outcome is the refusal of a race. -/
def isRace (o : Out) : Bool :=
  match o with
  | .refused .race => true
  | _ => false

/-- Two commands with a common destination byte race, though neither would access it (70_reset_and_hazards.md R195 (a),
93_implementation_defined.md U2); the word 0x26 of `region_multiply.32` would end in InvalidLength and races all the same. -/
theorem test_shared_destination :
    isRace (startOn 1 0x46#32 sharedState) = true ∧ isRace (writeCommand 1 0x46#32 sharedState) = true ∧
    isRace (writeCommand 1 0x26#32 { sharedState with ports := [regions 0 0x110 0 0x120 4, regions 0 0x100 0 0x123 3] }) = true ∧
    after (writeCommand 1 0x5#32 untouchedState) (fun t => t.mem.readBytes 0x130 2) = some [0x11#8, 0x02#8] := by decide +kernel

/-- Host accesses to regions that the command in flight has and does not access (20_memory.md R66): a store to the destination or
the source and a load of the destination race, a load of the source does not. -/
theorem test_host_races :
    isRace (hostStore 0x120 [1] untouchedState) = true ∧ isRace (hostStore 0x110 [1] untouchedState) = true ∧
    isRace (hostLoad 0x120 1 untouchedState) = true ∧
    after (hostLoad 0x110 1 untouchedState) State.seen = some [.bytes [0x10#8]] := by decide +kernel

/-- The start of a `region_xor` on the idle port 1 without a conflict, and of one whose regions partially overlap; a port with a
command in flight, for `build` and `finish`, and one without. -/
theorem witness_StartBuildFinish :
    1 < untouchedState.ports.length ∧ (∀ f ∈ untouchedState.inFlight, f.port ≠ 1) ∧
    (∀ f ∈ untouchedState.inFlight, ¬ f.Races { untouchedState with host := [], cur := 1 } 0x5#32) ∧
    (∃ t, runWord 0x5#32 { untouchedState with host := [], cur := 1 } = .next t) ∧
    (∃ r, runWord 0x5#32 (stateOf (regions 0 0x100 0x200 0x101 2) cells) = .refused r) ∧
    untouchedState.flightOn 0 = some (untouchedState.inFlight[0]) ∧ untouchedState.flightOn 1 = none ∧
    ∃ t, runWord 0x46#32 { untouchedState with inFlight := [], cur := 0 } = .next t := by
  refine ⟨by decide, by decide, fun f hf h => ?_, next_of_after (by decide +kernel), ⟨.partialOverlap, rfl⟩, by decide, by decide,
    next_of_after (by decide +kernel)⟩
  have hr : State.races { untouchedState with host := [], cur := 1 } 0x5#32 = true := races_iff.2 ⟨f, hf, h⟩
  exact absurd hr (by decide +kernel)

/-- An early build sets `BUILT16` before the command completes (40_field_tables.md R105), and leaves it in flight. -/
theorem test_build :
    after (step { stateOf (operands 0 0) [] with
        host := [.build 0], inFlight := [{ port := 0, word := 0x11, touches := { reads := [], writes := [] } }] })
      (fun t => (result t, t.inFlight.length)) = some ((0x55#32, 0x200#32), 1) := by decide +kernel

theorem witness_ConcurrentCommandsCommute :
    twoPorts.Wf ∧ twoPorts.flightOn 0 = some (twoPorts.inFlight[0]) ∧ twoPorts.flightOn 1 = some (twoPorts.inFlight[1]) ∧
    (twoPorts.inFlight[0]).touches = touches (twoPorts.inFlight[0]).word (twoPorts.landed 0) ∧
    (twoPorts.inFlight[1]).touches = touches (twoPorts.inFlight[1]).word (twoPorts.landed 1) ∧
    ¬ Conflict (twoPorts.inFlight[0]).touches (twoPorts.inFlight[1]).touches ∧
    ∃ s1, finishOn 0 twoPorts = .next s1 ∧ after (finishOn 1 s1) (fun _ => true) = some true :=
  ⟨twoPorts_wf, by decide +kernel, by decide +kernel, by decide +kernel, by decide +kernel,
    fun h => absurd (conflicts_iff.2 h) (by decide +kernel), next_with (by decide +kernel)⟩

/-- Reset with a region command in flight on each of two ports; the byte just past a destination is in none. -/
theorem witness_ResetActionResetsTheEngine :
    twoPorts.mem.wf ∧ (State.host { twoPorts with host := [.reset] }) = .reset :: [] ∧
    ∀ f ∈ twoPorts.inFlight, ¬ (twoPorts.portAt f.port).rangeD.contains 0x124 :=
  ⟨cells_wf, rfl, by unfold Range.contains; decide⟩

/-- A reset that cuts short a `region_multiply.8.acc` with constant 0, which would not have accessed its destination, leaves any
value there and the bytes beside it alone (70_reset_and_hazards.md R191). -/
theorem test_reset_frees_the_destination :
    ∃ t, hostReset { stateOf (regions 0 0x100 0 0x120 4) cells with inFlight :=
        [{ port := 0, word := 0x46, touches := { reads := [], writes := [] } }] } = .next t ∧
      t.mem.read 0x120 = Config.freeByte 1 0x120 ∧ t.mem.read 0x123 = Config.freeByte 1 0x123 ∧
      t.mem.read 0x100 = Memory.read { cells := cells } 0x100 := by
  refine ⟨_, rfl, (read_memAfterReset cells_wf 1 [{ base := 0x120, len := 4 }] 0x120).1 ?_,
    (read_memAfterReset cells_wf 1 [{ base := 0x120, len := 4 }] 0x123).1 ?_,
    (read_memAfterReset cells_wf 1 [{ base := 0x120, len := 4 }] 0x100).2 ?_⟩ <;> simp [Range.contains]

/-- Commands in flight complete with no host action waiting (70_reset_and_hazards.md R196). -/
theorem test_commands_complete :
    after (runSteps 2 twoPorts) (fun t => (t.inFlight, t.mem.readBytes 0x120 2, t.mem.readBytes 0x130 2)) =
      some ([], [0x11#8, 0x02#8], [0x11#8, 0x02#8]) := by decide +kernel

theorem witness_StepKeepsStatesWellFormed : State.Wf { twoPorts with host := [.finish 0] } ∧
    ∃ t, step { twoPorts with host := [.finish 0] } = .next t :=
  ⟨{ twoPorts_wf with }, next_of_after (by decide +kernel)⟩

theorem witness_EveryStepMakesProgress :
    (∃ t, step { twoPorts with host := [.rd 1 4] } = .next t) ∧
    twoPorts.host = [] ∧ twoPorts.inFlight ≠ [] ∧ (∃ t, step twoPorts = .next t) ∧
    ∃ t, runSteps (2 * twoPorts.host.length + twoPorts.inFlight.length) twoPorts = .next t :=
  ⟨next_of_after (by decide +kernel), rfl, by decide, next_of_after (by decide +kernel), next_of_after (by decide +kernel)⟩

theorem witness_ResetStateIsWellFormed : Config.default.Legal ∧ { Config.default with aw := 16 }.Legal := by decide

end Sys2Proof.Tests
end

section
/-! PROOFS. The ring GF(2)[x]/(p(x)) that `pmul` computes in (00_scope.md R14), and the powers of a generator
(00_scope.md R9, 40_field_tables.md R106, R109). The product is the loop of `pmul` over the bits of its second factor: it
commutes with every map that is additive and commutes with `xtime`, and from that the ring laws follow for every `p`. -/

namespace Sys2Proof.Machine

/-! ### The ring laws of `pmul` -/

section Ring
variable (p : Nat) {n : Nat}

/-- The shift, and the polynomial where the bit shifted out is set. -/
theorem getLsbD_xtime (v : BitVec n) {i : Nat} (hi : i < n) :
    (xtime p v).getLsbD i = ((decide (1 ≤ i) && v.getLsbD (i - 1)) ^^ (v.getLsbD (n - 1) && p.testBit i)) := by
  have hn : 1 ≤ n := by omega
  have htop : (v.toNat <<< 1).testBit n = v.getLsbD (n - 1) := by simp [Nat.testBit_shiftLeft, BitVec.getLsbD, hn]
  simp only [xtime, htop]
  cases v.getLsbD (n - 1) <;> simp [BitVec.getLsbD, Nat.testBit_shiftLeft, hi]

theorem xtime_xor (a b : BitVec n) : xtime p (a ^^^ b) = xtime p a ^^^ xtime p b := by
  refine BitVec.eq_of_getLsbD_eq fun i hi => ?_
  simp only [getLsbD_xtime p _ hi, BitVec.getLsbD_xor, Bool.and_xor_distrib_left, Bool.and_xor_distrib_right]
  simp only [Bool.xor_assoc, Bool.xor_left_comm]

theorem xtime_twoPow {i : Nat} (h : i + 1 < n) : xtime p (BitVec.twoPow n i) = BitVec.twoPow n (i + 1) := by
  refine BitVec.eq_of_getLsbD_eq fun j hj => ?_
  have htop : i ≠ n - 1 := by omega
  rw [getLsbD_xtime p _ hj, Bool.eq_iff_iff]
  simp only [BitVec.getLsbD_twoPow, htop, decide_false, Bool.and_false, Bool.false_and, Bool.xor_false, Bool.and_eq_true,
    decide_eq_true_eq]
  omega

theorem pmulFrom_xor (b : BitVec n) (count i : Nat) (r s t u : BitVec n) :
    pmulFrom p b count i (r ^^^ s) (t ^^^ u) = pmulFrom p b count i r t ^^^ pmulFrom p b count i s u := by
  induction count generalizing i r s t u with
  | zero => rfl
  | succ k ih =>
    simp only [pmulFrom]
    rw [xtime_xor, ← ih]
    split
    · congr 1; ac_rfl
    · rfl

theorem pmul_xor_left (a b c : BitVec n) : pmul p (a ^^^ b) c = pmul p a c ^^^ pmul p b c := by
  unfold pmul
  rw [← pmulFrom_xor, BitVec.xor_self]

theorem map_pmulFrom {f : BitVec n → BitVec n} (hadd : ∀ x y, f (x ^^^ y) = f x ^^^ f y)
    (hx : ∀ x, f (xtime p x) = xtime p (f x)) (b : BitVec n) (count i : Nat) (r t : BitVec n) :
    f (pmulFrom p b count i r t) = pmulFrom p b count i (f r) (f t) := by
  induction count generalizing i r t with
  | zero => rfl
  | succ k ih =>
    simp only [pmulFrom]
    rw [ih, hx, apply_ite f, hadd]

/-- An additive map that commutes with `xtime` is linear over the ring. -/
theorem map_pmul {f : BitVec n → BitVec n} (hadd : ∀ x y, f (x ^^^ y) = f x ^^^ f y)
    (hx : ∀ x, f (xtime p x) = xtime p (f x)) (a b : BitVec n) : f (pmul p a b) = pmul p (f a) b := by
  have hzero : f 0#n = 0#n := by simpa using hadd 0#n 0#n
  rw [pmul, map_pmulFrom p hadd hx, hzero, pmul]

theorem xtime_pmul (a b : BitVec n) : xtime p (pmul p a b) = pmul p (xtime p a) b :=
  map_pmul p (xtime_xor p) (fun _ => rfl) a b

theorem pmul_right_comm (a b c : BitVec n) : pmul p (pmul p a b) c = pmul p (pmul p a c) b :=
  map_pmul p (f := fun x => pmul p x c) (fun x y => pmul_xor_left p x y c) (fun x => (xtime_pmul p x c).symm) a b

/-- The loop collects the bits of `b` when its shifted factor runs through the powers of two. -/
theorem pmulFrom_twoPow (b : BitVec n) {count i : Nat} {r t : BitVec n} (hn : i + count = n)
    (ht : i < n → t = BitVec.twoPow n i) (hr : ∀ j, r.getLsbD j = (decide (j < i) && b.getLsbD j)) :
    pmulFrom p b count i r t = b := by
  induction count generalizing i r t with
  | zero =>
    refine BitVec.eq_of_getLsbD_eq fun j hj => ?_
    have hji : j < i := by omega
    simp [pmulFrom, hr, hji]
  | succ k ih =>
    have hi : i < n := by omega
    refine ih (by omega) (fun h => ?_) fun j => ?_
    · rw [ht hi, xtime_twoPow p h]
    · rw [ht hi]
      by_cases hj : j = i
      · subst hj
        have hrj : r.getLsbD j = false := by simp [hr]
        cases b.getLsbD j <;> simp [hrj, BitVec.getLsbD_twoPow, hi, -BitVec.getLsbD_eq_getElem]
      · have hlt : (j < i + 1) = (j < i) := by simp only [eq_iff_iff]; omega
        cases b.getLsbD i <;> simp [hr, hlt, BitVec.getLsbD_twoPow, Ne.symm hj]

@[simp] theorem one_pmul (b : BitVec n) : pmul p 1#n b = b :=
  pmulFrom_twoPow p b (Nat.zero_add n) (fun _ => (BitVec.twoPow_zero).symm) (by simp)

theorem pmul_comm (a b : BitVec n) : pmul p a b = pmul p b a := by
  simpa using pmul_right_comm p 1#n a b

@[simp] theorem pmul_one (a : BitVec n) : pmul p a 1#n = a := by rw [pmul_comm, one_pmul]

theorem pmul_assoc (a b c : BitVec n) : pmul p (pmul p a b) c = pmul p a (pmul p b c) := by
  rw [pmul_comm p a b, pmul_right_comm, pmul_comm p _ a]

theorem pmul_xor_right (a b c : BitVec n) : pmul p a (b ^^^ c) = pmul p a b ^^^ pmul p a c := by
  rw [pmul_comm, pmul_xor_left, pmul_comm p b, pmul_comm p c]

@[simp] theorem zero_pmul (a : BitVec n) : pmul p 0#n a = 0#n := by simpa using pmul_xor_left p 0#n 0#n a

@[simp] theorem pmul_zero (a : BitVec n) : pmul p a 0#n = 0#n := by rw [pmul_comm, zero_pmul]

end Ring

/-! ### Powers -/

/-- The elements of width `n` with `pmul p` as their product, apart from the arithmetic of `BitVec n`. -/
def Residue (_p n : Nat) : Type := BitVec n

/-- The residues form a commutative monoid whose powers are those of `ppow`: Mathlib's laws of powers and orders apply. -/
@[reducible] def Residue.commMonoid (p n : Nat) : CommMonoid (Residue p n) where
  mul := pmul p (n := n)
  mul_assoc := pmul_assoc p
  one := 1#n
  one_mul := one_pmul p
  mul_one := pmul_one p
  mul_comm := pmul_comm p
  npow := fun e a => ppow p (n := n) a e
  npow_zero := fun _ => rfl
  npow_succ := fun _ _ => rfl

section Powers
variable (p : Nat) {n : Nat} (a : BitVec n)

@[simp] theorem ppow_zero : ppow p a 0 = 1#n := rfl

@[simp] theorem ppow_one : ppow p a 1 = a := one_pmul p a

theorem ppow_succ (i : Nat) : ppow p a (i + 1) = pmul p (ppow p a i) a := rfl

theorem ppow_add (i j : Nat) : ppow p a (i + j) = pmul p (ppow p a i) (ppow p a j) :=
  letI := Residue.commMonoid p n
  pow_add (M := Residue p n) a i j

theorem ppow_mul (i j : Nat) : ppow p a (i * j) = ppow p (ppow p a i) j :=
  letI := Residue.commMonoid p n
  pow_mul (M := Residue p n) a i j

theorem fpowFrom_eq {count e : Nat} (he : e < 2 ^ count) (acc : BitVec n) :
    fpowFrom p count a e acc = pmul p acc (ppow p a e) := by
  induction count generalizing a e acc with
  | zero =>
    obtain rfl : e = 0 := by omega
    simp [fpowFrom]
  | succ k ih =>
    have hsq : ppow p (pmul p a a) (e / 2) = ppow p a (2 * (e / 2)) := by rw [ppow_mul, ppow_succ, ppow_one]
    rw [fpowFrom, ih _ (by omega), hsq]
    split
    · have hodd : e = 1 + 2 * (e / 2) := by omega
      rw [pmul_assoc]
      conv_rhs => rw [hodd, ppow_add, ppow_one]
    · have heven : 2 * (e / 2) = e := by omega
      rw [heven]

theorem fpow_eq_ppow {e : Nat} (he : e < 2 ^ n) : fpow p a e = ppow p a e := by
  rw [fpow, fpowFrom_eq p a he, one_pmul]

end Powers

/-! ### The order test -/

theorem order_lt (w : Width) : w.order < 2 ^ w.bits := Nat.sub_lt (Nat.two_pow_pos _) Nat.one_pos

theorem two_lt_order (w : Width) : 2 < w.order := by cases w <;> decide

theorem order_eq_prod (w : Width) : w.order = (primesOfOrder w).prod := by cases w <;> rfl

theorem prime_of_mem_primesOfOrder {w : Width} {q : Nat} (h : q ∈ primesOfOrder w) : q.Prime := by
  have hall : q ∈ [3, 5, 17, 257, 65537] := by
    cases w <;> simp only [primesOfOrder, List.mem_cons, List.not_mem_nil] at h ⊢ <;> tauto
  simp only [List.mem_cons, List.not_mem_nil, or_false] at hall
  obtain rfl | rfl | rfl | rfl | rfl := hall <;> norm_num

theorem mem_primesOfOrder_iff {w : Width} {q : Nat} : q ∈ primesOfOrder w ↔ q.Prime ∧ q ∣ w.order := by
  constructor
  · exact fun h => ⟨prime_of_mem_primesOfOrder h, order_eq_prod w ▸ List.dvd_prod h⟩
  · rintro ⟨hq, hdvd⟩
    exact mem_list_primes_of_dvd_prod hq.prime (fun _ h => (prime_of_mem_primesOfOrder h).prime) (order_eq_prod w ▸ hdvd)

theorem paramsInRange_iff {w : Width} {poly gen : Nat} : paramsInRange w poly gen = true ↔
    poly.testBit w.bits = true ∧ poly < 2 ^ (w.bits + 1) ∧ gen < 2 ^ w.bits := by
  have hshift : poly >>> (w.bits + 1) = 0 ↔ poly < 2 ^ (w.bits + 1) := by
    rw [Nat.shiftRight_eq_div_pow, Nat.div_eq_zero_iff_lt (Nat.two_pow_pos _)]
  simp [paramsInRange, hshift, and_assoc]

theorem buildOk_iff {w : Width} {poly gen : Nat} : buildOk w poly gen = true ↔
    paramsInRange w poly gen = true ∧ ppow poly (BitVec.ofNat w.bits gen) w.order = 1#w.bits ∧
      ∀ q, q.Prime → q ∣ w.order → ppow poly (BitVec.ofNat w.bits gen) (w.order / q) ≠ 1#w.bits := by
  have hpow (q : Nat) :
      fpow poly (BitVec.ofNat w.bits gen) (w.order / q) = ppow poly (BitVec.ofNat w.bits gen) (w.order / q) :=
    fpow_eq_ppow _ _ ((Nat.div_le_self _ q).trans_lt (order_lt w))
  simp [buildOk, fpow_eq_ppow _ _ (order_lt w), hpow, mem_primesOfOrder_iff, and_assoc]

section OrderTest
variable {p n N : Nat} {g : BitVec n}

/-- The order test makes `N` the order of `g`. -/
theorem ppow_ne_one_of_orderTest (hN : ppow p g N = 1#n) (hq : ∀ q, q.Prime → q ∣ N → ppow p g (N / q) ≠ 1#n)
    {i : Nat} (hi : i ≠ 0) (hiN : i < N) : ppow p g i ≠ 1#n := by
  let := Residue.commMonoid p n
  have horder : orderOf (G := Residue p n) g = N := orderOf_eq_of_pow_and_pow_div_prime (by omega) hN hq
  exact pow_ne_one_of_lt_orderOf (G := Residue p n) hi (horder.symm ▸ hiN)

theorem ppow_ne_zero_of_ppow_eq_one (hn : 0 < n) (hN : ppow p g N = 1#n) {i : Nat} (hi : i < N) : ppow p g i ≠ 0#n := by
  intro h0
  have hzero : ppow p g N = 0#n := by rw [← Nat.add_sub_cancel' hi.le, ppow_add, h0, zero_pmul]
  have hone : 1#n ≠ 0#n := by simpa using hn.ne'
  exact hone (hN ▸ hzero)

theorem ppow_ne_of_orderTest (hN : ppow p g N = 1#n) (hq : ∀ q, q.Prime → q ∣ N → ppow p g (N / q) ≠ 1#n)
    {i j : Nat} (hij : i < j) (hj : j < N) : ppow p g i ≠ ppow p g j := by
  intro h
  have hone : ppow p g (i + (N - j)) = 1#n := by rw [ppow_add, h, ← ppow_add, Nat.add_sub_cancel' hj.le, hN]
  exact ppow_ne_one_of_orderTest hN hq (by omega) (by omega) hone

end OrderTest

/-! ### The powers of a valid generator

The premises are those of 00_scope.md R9: the first `2^n - 1` powers are not 0 and pairwise distinct. They are then all the
nonzero elements, and that closes the cycle. -/

section Generator
variable {p n : Nat} {g : BitVec n} (hne : ∀ i, i < 2 ^ n - 1 → ppow p g i ≠ 0#n)
  (hlt : ∀ i j, i < j → j < 2 ^ n - 1 → ppow p g i ≠ ppow p g j)
include hne hlt

theorem exists_ppow_eq {a : BitVec n} (ha : a ≠ 0#n) : ∃ i, i < 2 ^ n - 1 ∧ ppow p g i = a := by
  have hcard : (Finset.univ.erase 0#n).card = 2 ^ n - 1 := by
    rw [Finset.card_erase_of_mem (Finset.mem_univ _), Finset.card_univ, Fintype.card_congr BitVec.equivFin.toEquiv,
      Fintype.card_fin]
  have hinj (i j : Nat) (hi : i ∈ Finset.range (2 ^ n - 1)) (hj : j ∈ Finset.range (2 ^ n - 1))
      (h : ppow p g i = ppow p g j) : i = j := by
    rw [Finset.mem_range] at hi hj
    obtain hij | rfl | hji := Nat.lt_trichotomy i j
    · exact absurd h (hlt i j hij hj)
    · rfl
    · exact absurd h.symm (hlt j i hji hi)
  obtain ⟨i, hi, rfl⟩ := Finset.surj_on_of_inj_on_of_card_le (fun i (_ : i ∈ Finset.range (2 ^ n - 1)) => ppow p g i)
    (fun i hi => Finset.mem_erase.2 ⟨hne i (Finset.mem_range.1 hi), Finset.mem_univ _⟩)
    hinj (by rw [hcard, Finset.card_range]) a (by simpa using ha)
  exact ⟨i, Finset.mem_range.1 hi, rfl⟩

/-- Were the generator nilpotent, `1 + g` would be a power `g^k` with `k > 0`, and multiplying it by the last nonzero power
would give both that power and 0. -/
theorem ppow_order_ne_zero (hn : 2 < 2 ^ n - 1) : ppow p g (2 ^ n - 1) ≠ 0#n := by
  intro hN
  obtain ⟨m, hm⟩ : ∃ m, 2 ^ n - 1 = m + 1 := ⟨2 ^ n - 2, by omega⟩
  have hg0 : g ≠ 0#n := by simpa using hne 1 (by omega)
  have hg1 : 1#n ≠ g := by simpa using hlt 0 1 Nat.zero_lt_one (by omega)
  obtain ⟨k, -, hk⟩ := exists_ppow_eq hne hlt (a := 1#n ^^^ g) (by simpa [BitVec.xor_eq_zero_iff] using hg1)
  obtain _ | j := k
  · exact hg0 ((BitVec.xor_right_inj _).1 (hk.symm.trans BitVec.xor_zero.symm))
  · have hlast : ppow p g m = 0#n := by
      calc ppow p g m = pmul p (ppow p g m) (1#n ^^^ g) := by
            rw [pmul_xor_right, pmul_one, ← ppow_succ, ← hm, hN, BitVec.xor_zero]
        _ = ppow p g (m + 1 + j) := by rw [← hk, ← ppow_add]; congr 1; omega
        _ = 0#n := by rw [ppow_add, ← hm, hN, zero_pmul]
    exact hne m (by omega) hlast

/-- The powers return to 1: were `g^(2^n - 1)` another power `g^(j + 1)`, then `g` would divide 0, so some power up to it would
be 0. -/
theorem ppow_order_eq_one (hn : 2 < 2 ^ n - 1) : ppow p g (2 ^ n - 1) = 1#n := by
  have hN := ppow_order_ne_zero hne hlt hn
  obtain ⟨k, hk, hkN⟩ := exists_ppow_eq hne hlt hN
  obtain ⟨m, hm⟩ : ∃ m, 2 ^ n - 1 = m + 1 := ⟨2 ^ n - 2, by omega⟩
  obtain _ | j := k
  · exact hkN.symm
  · have hdiff : ppow p g m ^^^ ppow p g j ≠ 0#n := by
      simpa [BitVec.xor_eq_zero_iff] using (hlt j m (by omega) (by omega)).symm
    obtain ⟨l, hl, hlm⟩ := exists_ppow_eq hne hlt hdiff
    have hzero : ppow p g (l + 1) = 0#n := by
      rw [ppow_succ, hlm, pmul_xor_left, ← ppow_succ, ← ppow_succ, hkN, ← hm, BitVec.xor_self]
    obtain hlN | hlN : l + 1 < 2 ^ n - 1 ∨ l + 1 = 2 ^ n - 1 := by omega
    · exact absurd hzero (hne _ hlN)
    · exact absurd (hlN ▸ hzero) hN

end Generator

/-! ### The build test -/

/-- Settles O12: the order test gives the powers of a generator of order `N_w`; the powers of a valid generator are all the
nonzero elements, so they return to 1 after `N_w` steps and not before. -/
theorem buildSucceedsExactlyWhenValid : Obligations.BuildSucceedsExactlyWhenValid := by
  intro w poly gen
  rw [buildOk_iff, paramsInRange_iff]
  constructor
  · rintro ⟨⟨htop, hdeg, hgen⟩, hN, hq⟩
    have hbits : 0 < w.bits := by cases w <;> decide
    exact ⟨htop, hdeg, hgen, fun _ => ppow_ne_zero_of_ppow_eq_one hbits hN, fun _ _ => ppow_ne_of_orderTest hN hq⟩
  · rintro ⟨htop, hdeg, hgen, hne, hlt⟩
    refine ⟨⟨htop, hdeg, hgen⟩, ppow_order_eq_one hne hlt (two_lt_order w), fun q hq hdvd hone => ?_⟩
    have horder : 0 < w.order := (Nat.zero_lt_two).trans (two_lt_order w)
    have hpos : 0 < w.order / q := Nat.div_pos (Nat.le_of_dvd horder hdvd) hq.pos
    exact hlt 0 _ hpos (Nat.div_lt_self horder hq.one_lt) hone.symm

/-- Settles O16, by evaluating the order test of each default pair. -/
theorem defaultPairsBuild : Obligations.DefaultPairsBuild := by
  intro w
  cases w <;> decide +kernel

end Sys2Proof.Machine
end

section
/-! PROOFS. What a command can do (10_state.md R22 to R36): the shape step 5 of 60_exceptions.md R176 gives to every command
of a width, the ways a command completes, and what follows for the registers, `STATUS.ERR` and the tables. -/

namespace Sys2Proof.Machine

/-! ### The executing port -/

section OnlyErr
variable (s : State) (e : ErrCode)

@[simp] theorem onlyErr_cfg : (s.onlyErr e).cfg = s.cfg := rfl
@[simp] theorem onlyErr_tables : (s.onlyErr e).tables = s.tables := rfl
@[simp] theorem onlyErr_mem : (s.onlyErr e).mem = s.mem := rfl
@[simp] theorem onlyErr_cur : (s.onlyErr e).cur = s.cur := rfl

/-- What does not look at `STATUS.ERR` of a port is the same of the executing port, whatever stands there. -/
theorem port_onlyErr {α : Type} (g : Port → α) (hg : ∀ p, g { p with err := e } = g p) : g (s.onlyErr e).port = g s.port := by
  by_cases h : s.cur < s.ports.length
  · rw [show (s.onlyErr e).port = { s.port with err := e } from portAt_modify_same h _, hg]
  · have hports : (s.onlyErr e).ports = s.ports := by
      rw [State.onlyErr, List.modify_eq_set_getElem?, List.getElem?_eq_none (Nat.le_of_not_lt h)]; rfl
    rw [State.port, State.portAt, hports, onlyErr_cur]; rfl

@[simp] theorem onlyErr_port_ea : (s.onlyErr e).port.ea = s.port.ea := port_onlyErr s e Port.ea fun _ => rfl
@[simp] theorem onlyErr_port_eb : (s.onlyErr e).port.eb = s.port.eb := port_onlyErr s e Port.eb fun _ => rfl
@[simp] theorem onlyErr_port_pa : (s.onlyErr e).port.pa = s.port.pa := port_onlyErr s e Port.pa fun _ => rfl
@[simp] theorem onlyErr_port_pb : (s.onlyErr e).port.pb = s.port.pb := port_onlyErr s e Port.pb fun _ => rfl
@[simp] theorem onlyErr_port_pd : (s.onlyErr e).port.pd = s.port.pd := port_onlyErr s e Port.pd fun _ => rfl
@[simp] theorem onlyErr_port_len : (s.onlyErr e).port.len = s.port.len := port_onlyErr s e Port.len fun _ => rfl

/-- A second error code takes the place of the first (10_state.md R29). -/
@[simp] theorem onlyErr_onlyErr (e' : ErrCode) : (s.onlyErr e).onlyErr e' = s.onlyErr e' := by
  simp only [State.onlyErr, List.modify_modify_eq]; rfl

@[simp] theorem deliver_onlyErr {w : Width} (r : Elem w) : (s.onlyErr e).deliver r = s.deliver r := by
  simp only [State.onlyErr, State.deliver, State.modifyPortAt, List.modify_modify_eq]; rfl

variable {s}

theorem onlyErr_port_err (h : s.cur < s.ports.length) : (s.onlyErr e).port.err = e := by
  rw [show (s.onlyErr e).port = { s.port with err := e } from portAt_modify_same h _]

end OnlyErr

/-- The state as a command leaves it: `ER` and `STATUS.ERR` of the executing port, the tables and memory. -/
def State.ended (s : State) (er : Word) (err : ErrCode) (tb : Tables) (m : Memory) : State :=
  { s with ports := s.ports.modify s.cur fun p => { p with er := er, err := err }, tables := tb, mem := m }

theorem ended_port {s : State} (h : s.cur < s.ports.length) (er : Word) (err : ErrCode) (tb : Tables) (m : Memory) :
    (s.ended er err tb m).port = { s.port with er := er, err := err } :=
  portAt_modify_same h _

/-- Of two updates of a port only their values on its registers matter. -/
theorem modify_portAt_congr {s : State} {p : Nat} {f g : Port → Port} (h : f (s.portAt p) = g (s.portAt p)) :
    s.ports.modify p f = s.ports.modify p g := by
  refine List.ext_getElem (by simp) fun i hi _ => ?_
  simp only [List.length_modify] at hi
  rw [List.getElem_modify, List.getElem_modify]
  split
  · next hpi => subst hpi; rwa [← portAt_eq_getElem hi]
  · rfl

/-- An update of the registers of a port that exists is the list with that port's new registers. -/
theorem modify_eq_set_portAt {s : State} {p : Nat} (h : p < s.ports.length) (f : Port → Port) :
    s.ports.modify p f = s.ports.set p (f (s.portAt p)) := by
  rw [List.modify_eq_set_getElem?, List.getElem?_eq_getElem h, portAt_eq_getElem h]; rfl

theorem onlyErr_eq_ended (s : State) (e : ErrCode) : s.onlyErr e = s.ended s.port.er e s.tables s.mem := by
  have := modify_portAt_congr (s := s) (p := s.cur) (f := fun p => { p with err := e })
    (g := fun p => { p with er := s.port.er, err := e }) rfl
  simp only [State.onlyErr, State.ended, this]

/-! ### Step 5 of the commands of a width -/

/-- Step 5 of 60_exceptions.md R176: `get_tables(w)`, ConfigurationError when the build fails, and else the command's end `k` on
the tables of the width and the state with the width built. -/
def State.afterBuild (s : State) (w : Width) (k : TableSet → State → Out) : Out :=
  match s.getTables w with
  | none => .next (s.onlyErr .configurationError)
  | some (ts, t) => k ts t

section Commands
variable (w : Width) (s : State)

theorem execInitField_supported :
    execInitField (.supported w) s = s.afterBuild w fun _ t => .next (t.onlyErr .none) := by
  unfold execInitField State.afterBuild
  cases h : s.getTables w <;> simp [h, setErr_eq_onlyErr]

theorem execMultiply_supported : execMultiply (.supported w) s =
    if fits w s.port.ea && fits w s.port.eb then
      s.afterBuild w fun ts t => .next (t.deliver (gfMul w ts (elem w s.port.ea) (elem w s.port.eb)))
    else .next (s.onlyErr .badOperand) := by
  unfold execMultiply State.afterBuild
  cases hf : fits w s.port.ea && fits w s.port.eb
  · simp [hf, setErr_eq_onlyErr]
  · cases h : s.getTables w <;> simp [hf, h, setErr_eq_onlyErr]

theorem execDivide_supported : execDivide (.supported w) s =
    if fits w s.port.ea && fits w s.port.eb then
      if s.port.eb = 0#32 then .next (s.onlyErr .divisionByZero)
      else s.afterBuild w fun ts t => .next (t.deliver (gfDiv w ts (elem w s.port.ea) (elem w s.port.eb)))
    else .next (s.onlyErr .badOperand) := by
  unfold execDivide State.afterBuild
  cases hf : fits w s.port.ea && fits w s.port.eb
  · simp [hf, setErr_eq_onlyErr]
  · by_cases hb : s.port.eb = 0#32
    · simp only [hb] at hf
      simp [hf, hb, setErr_eq_onlyErr]
    · cases h : s.getTables w <;> simp [hf, hb, h, setErr_eq_onlyErr]

theorem execInverse_supported : execInverse (.supported w) s =
    if fits w s.port.ea then
      if s.port.ea = 0#32 then .next (s.onlyErr .divisionByZero)
      else s.afterBuild w fun ts t => .next (t.deliver (gfInv w ts (elem w s.port.ea)))
    else .next (s.onlyErr .badOperand) := by
  unfold execInverse State.afterBuild
  cases hf : fits w s.port.ea
  · simp [hf, setErr_eq_onlyErr]
  · by_cases ha : s.port.ea = 0#32
    · simp only [ha] at hf
      simp [hf, ha, setErr_eq_onlyErr]
    · cases h : s.getTables w <;> simp [hf, ha, h, setErr_eq_onlyErr]

/-- Step 6 of `region_multiply` on the state with the width built (42_region_ops.md R140, R142). -/
def State.scaleRegion (s : State) (w : Width) (acc : Bool) (ts : TableSet) (t : State) : Out :=
  match multiplyProblem s.cfg s.port acc with
  | some r => .refused r
  | none => .next { t.onlyErr .none with mem := scaledMemory s.cfg.elemEndian w ts acc s.port s.mem }

theorem execRegionMultiply_supported (acc : Bool) : execRegionMultiply (.supported w) acc s =
    if fits w s.port.ea then
      if wholeElements w s.port.len then s.afterBuild w (s.scaleRegion w acc) else .next (s.onlyErr .invalidLength)
    else .next (s.onlyErr .badOperand) := by
  unfold execRegionMultiply State.afterBuild State.scaleRegion
  cases hf : fits w s.port.ea
  · simp [hf, setErr_eq_onlyErr]
  · cases hl : wholeElements w s.port.len
    · simp [hf, hl, setErr_eq_onlyErr]
    · cases h : s.getTables w
      · simp [hf, hl, h, setErr_eq_onlyErr]
      · simp only [hf, hl, h, Bool.not_true, Bool.false_eq_true, if_false, if_true]
        rfl

end Commands

theorem execRegionXor_of_problem {s : State} {r : Refusal} (h : xorProblem s.cfg s.port = some r) :
    execRegionXor s = .refused r := by
  rw [execRegionXor, h]

theorem execRegionXor_of_no_problem {s : State} (h : xorProblem s.cfg s.port = none) : execRegionXor s = .next
    { s.onlyErr .none with
      mem := xorPositions s.port.pa.toNat s.port.pb.toNat s.port.pd.toNat s.mem (List.range s.port.len.toNat) } := by
  rw [execRegionXor, h]; rfl

/-! ### The ways a command completes -/

/-- The command is a `multiply`, `divide` or `inverse` of the width. -/
def IsElement (i : Instr) (w : Width) : Prop :=
  i = .multiply (.supported w) ∨ i = .divide (.supported w) ∨ i = .inverse (.supported w)

/-- The ways a command completes from the state `s`, one for each kind of effect it can have. -/
inductive Completes (s : State) : Instr → State → Prop
  /-- it raises an error, which is its only effect (60_exceptions.md R177) -/
  | raised (i : Instr) (e : ErrCode) (he : e ≠ .none) : Completes s i (s.onlyErr e)
  /-- `init_field` -/
  | built (w : Width) (ts : TableSet) (tb : Tables) (hget : s.getTables w = some (ts, { s with tables := tb })) :
    Completes s (.initField (.supported w)) (s.ended s.port.er .none tb s.mem)
  /-- an element command delivers `r` (10_state.md R24) -/
  | delivered (i : Instr) (w : Width) (ts : TableSet) (tb : Tables) (r : Elem w)
    (hget : s.getTables w = some (ts, { s with tables := tb })) (hi : IsElement i w) :
    Completes s i (s.ended (r.setWidth 32) .none tb s.mem)
  /-- `region_xor` -/
  | xored (hregions : xorProblem s.cfg s.port = none) :
    Completes s .regionXor (s.ended s.port.er .none s.tables
      (xorPositions s.port.pa.toNat s.port.pb.toNat s.port.pd.toNat s.mem (List.range s.port.len.toNat)))
  /-- `region_multiply` -/
  | scaled (w : Width) (acc : Bool) (ts : TableSet) (tb : Tables)
    (hget : s.getTables w = some (ts, { s with tables := tb })) (hregions : multiplyProblem s.cfg s.port acc = none) :
    Completes s (.regionMultiply (.supported w) acc)
      (s.ended s.port.er .none tb (scaledMemory s.cfg.elemEndian w ts acc s.port s.mem))

/-- A command that completes after step 5 raises ConfigurationError or ends on the tables of the width. -/
theorem afterBuild_next {s t : State} {w : Width} {k : TableSet → State → Out} (h : s.afterBuild w k = .next t) :
    t = s.onlyErr .configurationError ∨
      ∃ ts tb, s.getTables w = some (ts, { s with tables := tb }) ∧ k ts { s with tables := tb } = .next t := by
  unfold State.afterBuild at h
  cases hget : s.getTables w with
  | none => rw [hget] at h; cases h; exact .inl rfl
  | some r =>
    obtain ⟨ts, u⟩ := r
    have hu := getTables_frame hget
    rw [hget] at h
    exact .inr ⟨ts, u.tables, by rw [← hu], by rw [← hu]; exact h⟩

/-- An element command that completes after step 5. -/
theorem completes_of_deliver {s t : State} {i : Instr} {w : Width} {f : TableSet → Elem w} (hi : IsElement i w)
    (h : s.afterBuild w (fun ts t => .next (t.deliver (f ts))) = .next t) : Completes s i t := by
  rcases afterBuild_next h with rfl | ⟨ts, tb, hget, ht⟩
  · exact .raised i _ (by decide)
  · cases ht
    exact .delivered i w ts tb (f ts) hget hi

/-- All the ways in which a command completes. -/
theorem exec_completes {i : Instr} {s t : State} (h : exec i s = .next t) : Completes s i t := by
  have raised {i : Instr} {e : ErrCode} (he : e ≠ .none) (h : Host.Outcome.next (s.onlyErr e) = (.next t : Out)) :
      Completes s i t := by cases h; exact .raised i e he
  cases i with
  | initField wc =>
    cases wc with
    | unsupported => exact raised (e := .configurationError) (by decide) h
    | supported w =>
      rw [exec, execInitField_supported] at h
      rcases afterBuild_next h with rfl | ⟨ts, tb, hget, ht⟩
      · exact .raised _ _ (by decide)
      · cases ht
        rw [onlyErr_eq_ended]
        exact .built w ts tb hget
  | multiply wc =>
    cases wc with
    | unsupported => exact raised (e := .configurationError) (by decide) h
    | supported w =>
      rw [exec, execMultiply_supported] at h
      split at h
      · exact completes_of_deliver (.inl rfl) h
      · exact raised (by decide) h
  | divide wc =>
    cases wc with
    | unsupported => exact raised (e := .configurationError) (by decide) h
    | supported w =>
      rw [exec, execDivide_supported] at h
      split at h
      · split at h
        · exact raised (by decide) h
        · exact completes_of_deliver (.inr (.inl rfl)) h
      · exact raised (by decide) h
  | inverse wc =>
    cases wc with
    | unsupported => exact raised (e := .configurationError) (by decide) h
    | supported w =>
      rw [exec, execInverse_supported] at h
      split at h
      · split at h
        · exact raised (by decide) h
        · exact completes_of_deliver (.inr (.inr rfl)) h
      · exact raised (by decide) h
  | regionXor =>
    rcases execRegionXor_cases s with ⟨r, -, hr⟩ | ⟨hregions, hr⟩
    · rw [exec, hr] at h; cases h
    · rw [exec, hr] at h
      cases h
      rw [onlyErr_eq_ended]
      exact .xored hregions
  | regionMultiply wc acc =>
    cases wc with
    | unsupported => exact raised (e := .configurationError) (by decide) h
    | supported w =>
      rw [exec, execRegionMultiply_supported] at h
      split at h
      · split at h
        · rcases afterBuild_next h with rfl | ⟨ts, tb, hget, ht⟩
          · exact .raised _ _ (by decide)
          · unfold State.scaleRegion at ht
            cases hregions : multiplyProblem s.cfg s.port acc with
            | some r => rw [hregions] at ht; cases ht
            | none =>
              rw [hregions] at ht
              cases ht
              rw [onlyErr_eq_ended]
              exact .scaled w acc ts tb hget hregions
        · exact raised (by decide) h
      · exact raised (by decide) h

/-- A command word that completes is an illegal word with its error, or a command that completes. -/
theorem runWord_completes {c : Word} {s t : State} (h : runWord c s = .next t) :
    ((∃ r, decodeWord c = .error r) ∧ t = s.onlyErr .illegalCommand) ∨ ∃ i, decodeWord c = .ok i ∧ Completes s i t := by
  unfold runWord at h
  cases hd : decodeWord c with
  | error r => rw [hd] at h; cases h; exact .inl ⟨⟨r, rfl⟩, rfl⟩
  | ok i => rw [hd] at h; exact .inr ⟨i, rfl, exec_completes h⟩

/-! ### What follows for the registers and the tables -/

theorem completes_ended {s t : State} {i : Instr} (h : Completes s i t) : ∃ er err tb m, t = s.ended er err tb m := by
  cases h with
  | raised _ e he => exact ⟨_, _, _, _, onlyErr_eq_ended s e⟩
  | built | delivered | xored | scaled => exact ⟨_, _, _, _, rfl⟩

theorem runWord_ended {c : Word} {s t : State} (h : runWord c s = .next t) : ∃ er err tb m, t = s.ended er err tb m := by
  rcases runWord_completes h with ⟨-, rfl⟩ | ⟨i, -, hc⟩
  · exact ⟨_, _, _, _, onlyErr_eq_ended s _⟩
  · exact completes_ended hc

/-- Settles O30: every way to complete writes at most `ER`, `STATUS.ERR`, the tables and memory. -/
theorem commandsChangeOnlyResultStatusTablesAndMemory : Obligations.CommandsChangeOnlyResultStatusTablesAndMemory := by
  intro c s t h
  obtain ⟨er, err, tb, m, rfl⟩ := runWord_ended h
  by_cases hcur : s.cur < s.ports.length
  · rw [ended_port hcur]; rfl
  · have hnone := List.getElem?_eq_none (Nat.le_of_not_lt hcur)
    simp only [State.ended, List.modify_eq_set_getElem?, hnone]; rfl

/-- An element cut from the low bits of a result register has its upper bits at 0 (10_state.md R24). -/
theorem toNat_setWidth_elem_lt {w : Width} (r : Elem w) : (r.setWidth 32).toNat < 2 ^ w.bits := by
  rw [BitVec.toNat_setWidth]
  exact (Nat.mod_le _ _).trans_lt r.isLt

/-- Settles O29, by the ways a command completes: only an element command delivers a result, and no command touches another
port. -/
theorem onlyElementCommandsWriteER : Obligations.OnlyElementCommandsWriteER := by
  intro c s t hcur h
  have hothers : ∀ q, q ≠ s.cur → (t.portAt q).er = (s.portAt q).er := by
    obtain ⟨er, err, tb, m, rfl⟩ := runWord_ended h
    exact fun q hq => congrArg Port.er (portAt_modify_other hq _)
  have hraised {e : ErrCode} (he : e ≠ .none) : (s.onlyErr e).port.er = s.port.er ∧ (s.onlyErr e).port.err ≠ .none :=
    ⟨port_onlyErr s e Port.er fun _ => rfl, by rwa [onlyErr_port_err e hcur]⟩
  rcases runWord_completes h with ⟨⟨r, hr⟩, rfl⟩ | ⟨i, hi, hc⟩
  · obtain ⟨her, -⟩ := hraised (e := .illegalCommand) (by decide)
    exact ⟨fun hne => absurd her hne, fun w hw => by simp [hr] at hw, hothers⟩
  · cases hc with
    | raised _ e he =>
      obtain ⟨her, herr⟩ := hraised he
      exact ⟨fun hne => absurd her hne, fun _ _ hnone => absurd hnone herr, hothers⟩
    | built | xored | scaled =>
      refine ⟨fun hne => absurd ?_ hne, fun w hw => by simp [hi] at hw, hothers⟩
      rw [ended_port hcur]
    | delivered _ w ts tb r hget hel =>
      refine ⟨fun _ => ?_, fun v hv _ => ?_, hothers⟩
      · rw [ended_port hcur]
        refine ⟨rfl, .supported w, ?_⟩
        rcases hel with rfl | rfl | rfl <;> simp [hi]
      · obtain rfl : w = v := by
          rcases hel with rfl | rfl | rfl <;> simpa [hi] using hv
        rw [ended_port hcur]
        exact toNat_setWidth_elem_lt r

/-- `get_tables` leaves every built table set as it is (10_state.md R33). -/
theorem getTables_keeps {s : State} {w v : Width} {ts ts' : TableSet} {tb : Tables}
    (hget : s.getTables w = some (ts, { s with tables := tb })) (hv : s.tables.get v = some ts') : tb.get v = some ts' := by
  rcases getTables_cases hget with ⟨-, heq⟩ | ⟨hnone, -, -, heq⟩
  · rwa [show tb = s.tables from congrArg State.tables heq]
  · have hne : v ≠ w := by rintro rfl; rw [hnone] at hv; cases hv
    rw [show tb = s.tables.set w ts from congrArg State.tables heq, tables_get_set_other hne, hv]

theorem runWord_keeps_tables {c : Word} {s t : State} {w : Width} {ts : TableSet} (h : runWord c s = .next t)
    (hts : s.tables.get w = some ts) : t.tables.get w = some ts := by
  rcases runWord_completes h with ⟨-, rfl⟩ | ⟨i, -, hc⟩
  · exact hts
  · cases hc with
    | raised | xored => exact hts
    | built v ts' tb hget => exact getTables_keeps hget hts
    | delivered _ v ts' tb r hget => exact getTables_keeps hget hts
    | scaled v acc ts' tb hget => exact getTables_keeps hget hts

/-! ### What a command does not read -/

theorem getTables_onlyErr (s : State) (e : ErrCode) (w : Width) :
    (s.onlyErr e).getTables w = (s.getTables w).map fun r => (r.1, r.2.onlyErr e) := by
  unfold State.getTables
  simp only [onlyErr_tables, onlyErr_cfg]
  cases s.tables.get w
  · by_cases h : buildOk w (s.cfg.poly w) (s.cfg.gen w) = true
    · simp [h, State.onlyErr]
    · simp [h]
  · rfl

theorem afterBuild_onlyErr (s : State) (e : ErrCode) (w : Width) (k : TableSet → State → Out) :
    (s.onlyErr e).afterBuild w k = s.afterBuild w fun ts t => k ts (t.onlyErr e) := by
  unfold State.afterBuild
  rw [getTables_onlyErr]
  cases s.getTables w <;> simp

theorem scaleRegion_onlyErr (s : State) (e : ErrCode) (w : Width) (acc : Bool) (ts : TableSet) (t : State) :
    (s.onlyErr e).scaleRegion w acc ts (t.onlyErr e) = s.scaleRegion w acc ts t := by
  unfold State.scaleRegion
  rw [port_onlyErr s e (multiplyProblem (s.onlyErr e).cfg · acc) fun _ => rfl,
    port_onlyErr s e (scaledMemory (s.onlyErr e).cfg.elemEndian w ts acc · (s.onlyErr e).mem) fun _ => rfl]
  simp

theorem execRegionXor_onlyErr (s : State) (e : ErrCode) : execRegionXor (s.onlyErr e) = execRegionXor s := by
  have hproblem : xorProblem (s.onlyErr e).cfg (s.onlyErr e).port = xorProblem s.cfg s.port :=
    port_onlyErr s e (xorProblem s.cfg) fun _ => rfl
  cases h : xorProblem s.cfg s.port with
  | some r => rw [execRegionXor_of_problem h, execRegionXor_of_problem (hproblem.trans h)]
  | none =>
    rw [execRegionXor_of_no_problem h, execRegionXor_of_no_problem (hproblem.trans h)]
    simp

/-- A command does the same whatever `STATUS.ERR` of its port holds (10_state.md R29). -/
theorem exec_onlyErr (i : Instr) (s : State) (e : ErrCode) : exec i (s.onlyErr e) = exec i s := by
  have hunsupported : (Host.Outcome.next ((s.onlyErr e).onlyErr .configurationError) : Out) =
      .next (s.onlyErr .configurationError) := by rw [onlyErr_onlyErr]
  cases i with
  | initField wc =>
    cases wc with
    | unsupported => exact hunsupported
    | supported w => simp [exec, execInitField_supported, afterBuild_onlyErr]
  | multiply wc =>
    cases wc with
    | unsupported => exact hunsupported
    | supported w => simp [exec, execMultiply_supported, afterBuild_onlyErr]
  | divide wc =>
    cases wc with
    | unsupported => exact hunsupported
    | supported w => simp [exec, execDivide_supported, afterBuild_onlyErr]
  | inverse wc =>
    cases wc with
    | unsupported => exact hunsupported
    | supported w => simp [exec, execInverse_supported, afterBuild_onlyErr]
  | regionXor => exact execRegionXor_onlyErr s e
  | regionMultiply wc acc =>
    cases wc with
    | unsupported => exact hunsupported
    | supported w => simp [exec, execRegionMultiply_supported, afterBuild_onlyErr, scaleRegion_onlyErr]

/-- Settles O32: an illegal word overwrites `STATUS.ERR`, and no command reads it. -/
theorem statusErrIsNeverRead : Obligations.StatusErrIsNeverRead := by
  intro c s e
  unfold runWord
  cases decodeWord c with
  | error r => exact congrArg Host.Outcome.next (onlyErr_onlyErr s e .illegalCommand)
  | ok i => exact exec_onlyErr i s e

end Sys2Proof.Machine
end

section
/-! PROOFS. The well-formed states: what a command, a host action and a step keep of them (10_state.md R25, R33, R36), and what
a command does on one. -/

namespace Sys2Proof.Machine

/-! ### Memory inside the address space -/

/-- Every listed byte lies below the bound. -/
def Memory.Below (m : Memory) (bound : Nat) : Prop := ∀ c ∈ m.cells, c.1 < bound

section Below
variable {m : Memory} {bound : Nat} (hm : m.Below bound)
include hm

theorem write_below {x : Nat} (hx : x < bound) (v : Byte) : (m.write x v).Below bound := by
  intro c hc
  rcases mem_writeCells hc with ⟨rfl, -⟩ | hc
  · exact hx
  · exact hm c hc

theorem writeElem_below (en : Endian) {w : Width} {x : Nat} (hx : x + w.bytes ≤ bound) (v : Elem w) :
    (m.writeElem en w x v).Below bound := by
  refine foldl_keeps (P := (Memory.Below · bound)) (fun m k hk hm => write_below hm ?_ _) hm
  have := List.mem_range.1 hk
  omega

theorem xorPositions_below (a b : Nat) {d n : Nat} (hd : d + n ≤ bound) :
    (xorPositions a b d m (List.range n)).Below bound := by
  refine foldl_keeps (P := (Memory.Below · bound)) (fun m i hi hm => write_below hm ?_ _) hm
  have := List.mem_range.1 hi
  omega

theorem scaledMemory_below (en : Endian) (w : Width) (ts : TableSet) (acc : Bool) {p : Port}
    (hd : p.pd.toNat + p.len.toNat ≤ bound) : (scaledMemory en w ts acc p m).Below bound := by
  unfold scaledMemory
  split
  · split
    · exact hm
    · refine foldl_keeps (P := (Memory.Below · bound)) (fun m i hi hm => write_below hm ?_ _) hm
      have := List.mem_range.1 hi
      omega
  · refine foldl_keeps (P := (Memory.Below · bound)) (fun m j hj hm => writeElem_below hm _ ?_ _) hm
    have hj : (j + 1) * w.bytes ≤ p.len.toNat / w.bytes * w.bytes := Nat.mul_le_mul_right _ (List.mem_range.1 hj)
    have := Nat.div_mul_le_self p.len.toNat w.bytes
    rw [Nat.succ_mul] at hj
    omega

theorem freeRegion_below (draw : Nat) {r : Range} (hr : ∀ x, r.contains x → x < bound) :
    (freeRegion draw m r).Below bound := by
  refine foldl_keeps (P := (Memory.Below · bound)) (fun m i hi hm => write_below hm (hr _ ⟨?_, ?_⟩) _) hm
  · omega
  · have := List.mem_range.1 hi
    omega

theorem memAfterReset_below (draw : Nat) {rs : List Range} (hrs : ∀ r ∈ rs, ∀ x, r.contains x → x < bound) :
    (memAfterReset draw m rs).Below bound :=
  foldl_keeps (P := (Memory.Below · bound)) (fun _ r hr hm => freeRegion_below hm draw (hrs r hr)) hm

end Below

theorem writeBytes_below {m : Memory} {bound x : Nat} (hm : m.Below bound) (bs : List Byte) (hx : x + bs.length ≤ bound) :
    (m.writeBytes x bs).Below bound := by
  induction bs generalizing m x with
  | nil => exact hm
  | cons b bs ih =>
    rw [List.length_cons] at hx
    exact ih (write_below hm (by omega) b) (by omega)

/-! ### The region checks -/

theorem xorProblem_eq_none {s : State} : xorProblem s.cfg s.port = none ↔ XorRegionsOk s := by
  unfold xorProblem XorRegionsOk
  simp [regionProblem_eq_none, ← Bool.not_eq_true, ← partlyOverlaps_eq_false, and_assoc]

theorem multiplyProblem_eq_none {s : State} {acc : Bool} :
    multiplyProblem s.cfg s.port acc = none ↔ MultiplyRegionsOk s acc := by
  unfold multiplyProblem MultiplyRegionsOk
  by_cases hc : s.port.ea = 0#32
  · simp [hc, regionProblem_eq_none]
  · simp [hc, regionProblem_eq_none, ← partlyOverlaps_eq_false, dstAccess]

/-- A `region_multiply` with valid regions has its destination inside the address space (20_memory.md R59). -/
theorem rangeD_inSpace_of_multiply {s : State} {acc : Bool} (h : multiplyProblem s.cfg s.port acc = none) :
    s.port.pd.toNat + s.port.len.toNat ≤ 2 ^ s.cfg.aw := by
  rcases multiplyProblem_eq_none.1 h with ⟨-, hd⟩ | ⟨-, -, hd, -⟩ <;> exact hd.1

theorem rangeD_inSpace_of_xor {s : State} (h : xorProblem s.cfg s.port = none) :
    s.port.pd.toNat + s.port.len.toNat ≤ 2 ^ s.cfg.aw := by
  obtain ⟨-, -, hd, -⟩ := xorProblem_eq_none.1 h
  exact hd.1

/-! ### What a command keeps -/

/-- Every table set held is the one of the parameters, whose build succeeds: the clause of `State.Wf`. -/
def Tables.Valid (tb : Tables) (c : Config) : Prop :=
  ∀ w ts, tb.get w = some ts → ts = { poly := c.poly w, gen := c.gen w } ∧ buildOk w (c.poly w) (c.gen w) = true

theorem getTables_valid {s : State} {w : Width} {ts : TableSet} {tb : Tables} (hs : s.tables.Valid s.cfg)
    (hget : s.getTables w = some (ts, { s with tables := tb })) : tb.Valid s.cfg := by
  rcases getTables_cases hget with ⟨-, heq⟩ | ⟨-, hbuild, rfl, heq⟩
  · rwa [show tb = s.tables from congrArg State.tables heq]
  · intro v ts' hv
    rw [show tb = s.tables.set w _ from congrArg State.tables heq] at hv
    by_cases hvw : v = w
    · subst hvw
      rw [tables_get_set_same] at hv
      cases hv
      exact ⟨rfl, hbuild⟩
    · rw [tables_get_set_other hvw] at hv
      exact hs v ts' hv

theorem forall_mem_modify {α : Type} {P : α → Prop} {f : α → α} {l : List α} (h : ∀ p ∈ l, P p) (hf : ∀ p, P p → P (f p))
    (i : Nat) : ∀ p ∈ l.modify i f, P p := by
  intro p hp
  obtain ⟨j, hj, rfl⟩ := List.getElem_of_mem hp
  rw [List.getElem_modify]
  have hj : j < l.length := by simpa using hj
  split
  · exact hf _ (h _ (List.getElem_mem hj))
  · exact h _ (List.getElem_mem hj)

section Keeps
variable {s : State} (hs : s.Wf)
include hs

theorem cur_lt_ports : s.cur < s.ports.length := hs.ports ▸ hs.cur

theorem port_inBounds : s.port.InBounds s.cfg.aw := by
  rw [State.port, portAt_eq_getElem (cur_lt_ports hs)]
  exact hs.regs _ (List.getElem_mem _)

theorem wf_modifyPortAt (p : Nat) {f : Port → Port} (hf : ∀ q, q.InBounds s.cfg.aw → (f q).InBounds s.cfg.aw) :
    (s.modifyPortAt p f).Wf :=
  { hs with
    ports := (List.length_modify ..).trans hs.ports
    regs := forall_mem_modify hs.regs hf p }

/-- The end of a command keeps a state well formed if its tables and its memory do. -/
theorem wf_ended (er : Word) (err : ErrCode) {tb : Tables} {m : Memory} (htb : tb.Valid s.cfg) (hm : m.wf)
    (hspace : m.Below (2 ^ s.cfg.aw)) : (s.ended er err tb m).Wf :=
  { wf_modifyPortAt hs s.cur (f := fun p => { p with er := er, err := err }) (fun _ h => h) with
    mem := hm
    space := hspace
    tables := htb }

theorem completes_wf {i : Instr} {t : State} (h : Completes s i t) : t.Wf := by
  cases h with
  | raised _ e he => rw [onlyErr_eq_ended]; exact wf_ended hs _ _ hs.tables hs.mem hs.space
  | built w ts tb hget => exact wf_ended hs _ _ (getTables_valid hs.tables hget) hs.mem hs.space
  | delivered _ w ts tb r hget hi => exact wf_ended hs _ _ (getTables_valid hs.tables hget) hs.mem hs.space
  | xored hregions =>
    exact wf_ended hs _ _ hs.tables (xorPositions_wf hs.mem _ _ _ _)
      (xorPositions_below hs.space _ _ (rangeD_inSpace_of_xor hregions))
  | scaled w acc ts tb hget hregions =>
    exact wf_ended hs _ _ (getTables_valid hs.tables hget) (scaledMemory_wf hs.mem _ _ _ _ _)
      (scaledMemory_below hs.space _ _ _ _ (rangeD_inSpace_of_multiply hregions))

theorem runWord_wf {c : Word} {t : State} (h : runWord c s = .next t) : t.Wf := by
  rcases runWord_completes h with ⟨-, rfl⟩ | ⟨i, -, hc⟩
  · rw [onlyErr_eq_ended]; exact wf_ended hs _ _ hs.tables hs.mem hs.space
  · exact completes_wf hs hc

end Keeps

theorem runWord_cfg {c : Word} {s t : State} (h : runWord c s = .next t) : t.cfg = s.cfg := by
  obtain ⟨er, err, tb, m, rfl⟩ := runWord_ended h
  rfl

theorem eq_rangeD_of_mem_regionsOf {i : Instr} {p : Port} {r : Range} (hr : r ∈ (regionsOf i p).writes) : r = p.rangeD := by
  cases i with
  | initField | multiply | divide | inverse => cases hr
  | regionXor => exact List.mem_singleton.1 hr
  | regionMultiply wc acc =>
    by_cases hc : p.ea = 0#32
    · cases acc with
      | true => simp [regionsOf, hc] at hr
      | false => simpa [regionsOf, hc] using hr
    · simpa [regionsOf, hc] using hr

/-- The regions a command in flight writes lie inside the address space: only a region command that completes without an error
has any, and its destination is valid. -/
theorem touches_writes_inSpace {c : Word} {s : State} (hcur : s.cur < s.ports.length) {r : Range}
    (hr : r ∈ (touches c s).writes) : r.base + r.len ≤ 2 ^ s.cfg.aw := by
  unfold touches at hr
  split at hr
  · next i t hi ht =>
    rw [runWord, hi] at ht
    split at hr
    · next herr =>
      cases exec_completes ht with
      | raised _ e he => exact absurd (onlyErr_port_err e hcur ▸ herr) he
      | built => cases hr
      | delivered _ w ts tb v hget hel => rcases hel with rfl | rfl | rfl <;> cases hr
      | xored hregions =>
        rw [eq_rangeD_of_mem_regionsOf hr]
        exact rangeD_inSpace_of_xor hregions
      | scaled w acc ts tb hget hregions =>
        rw [eq_rangeD_of_mem_regionsOf hr]
        exact rangeD_inSpace_of_multiply hregions
    · cases hr
  · cases hr

/-! ### What a host action does -/

/-- All that a host action which is performed can do to the state `s`. -/
inductive Performed (s : State) : HostAction → State → Prop
  /-- a command that races with none in flight runs -/
  | command (p v : Nat) (t : State) (hp : p < s.ports.length) (hv : v < 2 ^ 32)
    (hrace : State.races { s with cur := p } (BitVec.ofNat 32 v) = false)
    (hrun : runWord (BitVec.ofNat 32 v) { s with cur := p } = .next t) : Performed s (.wr p 0 v) t
  /-- a register other than `CMD` is written -/
  | written (p n v width : Nat) (hp : p < s.ports.length) (hn : n ≠ 0) (hwidth : registerWidth s.cfg n = some width)
    (hv : v < 2 ^ width) : Performed s (.wr p n v) (s.modifyPortAt p (writeOperand n v))
  /-- the host reads a register -/
  | read (p n : Nat) (v : BitVec 64) (hp : p < s.ports.length) (hv : readRegister s p n = some v) :
    Performed s (.rd p n) { s with seen := .register v :: s.seen }
  /-- the host stores bytes -/
  | stored (addr : Nat) (bytes : List Byte) (hok : HostRegionOk s.cfg { base := addr, len := bytes.length })
    (hrace : s.hostRaces { reads := [], writes := [{ base := addr, len := bytes.length }] } = false) :
    Performed s (.st addr bytes) { s with mem := s.mem.writeBytes addr bytes }
  /-- the host loads bytes -/
  | loaded (addr n : Nat) (hok : HostRegionOk s.cfg { base := addr, len := n })
    (hrace : s.hostRaces { reads := [{ base := addr, len := n }], writes := [] } = false) :
    Performed s (.ld addr n) { s with seen := .bytes (s.mem.readBytes addr n) :: s.seen }
  /-- a command that races with none in flight begins -/
  | started (p : Nat) (c : Word) (hp : p < s.ports.length) (hrace : State.races { s with cur := p } c = false)
    (hrun : ∃ t, runWord c { s with cur := p } = .next t) : Performed s (.start p c) { s with
      inFlight := s.inFlight ++ [{ port := p, word := c, touches := touches c { s with cur := p } }] }
  /-- a port without a command in flight has nothing to build or to finish -/
  | nothing (a : HostAction) (p : Nat) (ha : a = .build p ∨ a = .finish p) (hf : s.flightOn p = none) : Performed s a s
  /-- the tables of a command in flight are built -/
  | built (p : Nat) (f : Flight) (t : State) (hf : s.flightOn p = some f)
    (hrun : runWord f.word (s.landed p) = .next t) : Performed s (.build p) { s with tables := t.tables }
  /-- a command in flight completes -/
  | finished (p : Nat) (f : Flight) (t : State) (hf : s.flightOn p = some f)
    (hrun : runWord f.word (s.landed p) = .next t) : Performed s (.finish p) t
  /-- the engine is reset -/
  | reset (t : State) (ht : hostReset s = .next t) : Performed s .reset t

theorem mem_of_flightOn {s : State} {p : Nat} {f : Flight} (h : s.flightOn p = some f) : f ∈ s.inFlight ∧ f.port = p :=
  ⟨List.mem_of_find?_eq_some h, by simpa using List.find?_some h⟩

theorem flightOn_eq_none {s : State} {p : Nat} : s.flightOn p = none ↔ ∀ f ∈ s.inFlight, f.port ≠ p := by
  simp [State.flightOn, List.find?_eq_none]

theorem hostWrite_performed {p n v : Nat} {s t : State} (h : hostWrite p n v s = .next t) : Performed s (.wr p n v) t := by
  unfold hostWrite at h
  split at h
  · cases h
  · next hp =>
    cases hwidth : registerWidth s.cfg n with
    | none => rw [hwidth] at h; cases h
    | some width =>
      rw [hwidth] at h
      dsimp only at h
      split at h
      · cases h
      · next hv =>
        split at h
        · next hn =>
          subst hn
          unfold writeCommand at h
          dsimp only at h
          cases hwidth
          split at h
          · cases h
          · next hrace =>
            exact .command p v t (Nat.lt_of_not_le hp) (Nat.lt_of_not_le hv) (Bool.eq_false_iff.2 hrace) h
        · next hn =>
          cases h
          exact .written p n v width (Nat.lt_of_not_le hp) hn hwidth (Nat.lt_of_not_le hv)

theorem hostRead_performed {p n : Nat} {s t : State} (h : hostRead p n s = .next t) : Performed s (.rd p n) t := by
  unfold hostRead at h
  split at h
  · cases h
  · next hp =>
    cases hv : readRegister s p n with
    | none => rw [hv] at h; cases h
    | some v => rw [hv] at h; cases h; exact .read p n v (Nat.lt_of_not_le hp) hv

/-- A host access to memory that is done is to a region the host may access and conflicts with no command in flight. -/
theorem hostAccess_next {r : Range} {f : Footprint} {s done t : State} (h : hostAccess r f s done = .next t) :
    HostRegionOk s.cfg r ∧ s.hostRaces f = false ∧ t = done := by
  rcases hostAccess_cases r f s done with ⟨-, he⟩ | ⟨-, he⟩ | ⟨-, he⟩ | ⟨hspace, hdevice, hrace, he⟩ <;>
    rw [he] at h <;> cases h
  exact ⟨hostRegionOk_iff.2 ⟨hspace, hdevice⟩, hrace, rfl⟩

theorem hostStore_performed {addr : Nat} {bytes : List Byte} {s t : State} (h : hostStore addr bytes s = .next t) :
    Performed s (.st addr bytes) t := by
  obtain ⟨hok, hrace, rfl⟩ := hostAccess_next h
  exact .stored addr bytes hok hrace

theorem hostLoad_performed {addr n : Nat} {s t : State} (h : hostLoad addr n s = .next t) : Performed s (.ld addr n) t := by
  obtain ⟨hok, hrace, rfl⟩ := hostAccess_next h
  exact .loaded addr n hok hrace

theorem startOn_performed {p : Nat} {c : Word} {s t : State} (h : startOn p c s = .next t) : Performed s (.start p c) t := by
  rcases startOn_cases p c s with ⟨-, he⟩ | ⟨-, he⟩ | ⟨r, -, he⟩ | ⟨r, -, he⟩ | ⟨hp, hrace, hrun, he⟩ <;>
    rw [he] at h <;> cases h
  exact .started p c hp hrace hrun

theorem buildOn_performed {p : Nat} {s t : State} (h : buildOn p s = .next t) : Performed s (.build p) t := by
  unfold buildOn at h
  cases hf : s.flightOn p with
  | none => rw [hf] at h; cases h; exact .nothing _ p (.inl rfl) hf
  | some f =>
    rw [hf] at h
    dsimp only at h
    split at h
    · next u hrun => cases h; exact .built p f u hf hrun
    · cases h
    · cases h

theorem finishOn_performed {p : Nat} {s t : State} (h : finishOn p s = .next t) : Performed s (.finish p) t := by
  unfold finishOn at h
  cases hf : s.flightOn p with
  | none => rw [hf] at h; cases h; exact .nothing _ p (.inr rfl) hf
  | some f => rw [hf] at h; exact .finished p f t hf h

theorem perform_performed {a : HostAction} {s t : State} (h : perform a s = .next t) : Performed s a t := by
  cases a with
  | wr p n v => exact hostWrite_performed h
  | rd p n => exact hostRead_performed h
  | st addr bytes => exact hostStore_performed h
  | ld addr n => exact hostLoad_performed h
  | start p c => exact startOn_performed h
  | build p => exact buildOn_performed h
  | finish p => exact finishOn_performed h
  | reset => exact .reset t h

theorem flightOn_of_holding {s : State} {a : HostAction} {p : Nat} (h : s.holding? a = some p) :
    (s.flightOn p).isSome = true := by
  unfold State.holding? at h
  split at h
  · split at h
    · next hflight => cases h; exact hflight
    · cases h
  · cases h

/-- A step that answers a next state stays idle, or performs an action that is not held: the host's next one, or the completion of
a command in flight while the host's sequence waits. -/
theorem step_performed {s t : State} (h : step s = .next t) : (s.host = [] ∧ s.inFlight = [] ∧ t = s) ∨
    ∃ a rest, s.holding? a = none ∧ Performed { s with host := rest } a t ∧
      (s.host = a :: rest ∨ rest = s.host ∧ ∃ p, a = .finish p ∧ (s.flightOn p).isSome = true) := by
  rcases step_cases s with
    ⟨hhost, hidle, hstep⟩ | ⟨-, f, fs, hflights, hstep⟩ | ⟨a, rest, p, -, hheld, hstep⟩ | ⟨a, rest, hhost, hheld, hstep⟩ <;>
    rw [hstep] at h
  · cases h
    exact .inl ⟨hhost, hidle, rfl⟩
  · have hflight : (s.flightOn f.port).isSome = true := by simp [State.flightOn, hflights]
    exact .inr ⟨.finish f.port, s.host, rfl, finishOn_performed h, .inr ⟨rfl, _, rfl, hflight⟩⟩
  · exact .inr ⟨.finish p, s.host, rfl, finishOn_performed h, .inr ⟨rfl, p, rfl, flightOn_of_holding hheld⟩⟩
  · exact .inr ⟨a, rest, hheld, perform_performed h, .inl hhost⟩

/-! ### What a step keeps -/

/-- Settles O60, by all that a step can do. -/
theorem parametersNeverChange : Obligations.ParametersNeverChange := by
  intro s t h
  rcases step_performed h with ⟨-, -, rfl⟩ | ⟨a, rest, -, hp, -⟩
  · rfl
  · cases hp with
    | command p v _ hp hv hrace hrun => exact (runWord_cfg hrun :)
    | finished p f _ hf hrun => exact (runWord_cfg hrun :)
    | reset _ ht => cases ht; rfl
    | written | read | stored | loaded | started | nothing | built => rfl

/-- Settles O11, by all that a step can do: only a command and a build touch the tables, and neither a table set that is built. -/
theorem tablesLastUntilReset : Obligations.TablesLastUntilReset := by
  intro s t w ts h hts hreset
  rcases step_performed h with ⟨-, -, rfl⟩ | ⟨a, rest, -, hp, hnext⟩
  · exact hts
  · cases hp with
    | command p v _ hp hv hrace hrun => exact runWord_keeps_tables hrun hts
    | finished p f _ hf hrun => exact runWord_keeps_tables hrun hts
    | built p f u hf hrun => exact (runWord_keeps_tables hrun hts :)
    | reset =>
      rcases hnext with hhost | ⟨-, p, ha, -⟩
      · exact absurd hhost (hreset rest)
      · cases ha
    | written | read | stored | loaded | started | nothing => exact hts

theorem writeOperand_inBounds {c : Config} {n v width : Nat} (hwidth : registerWidth c n = some width)
    (hv : v < 2 ^ width) {p : Port} (hp : p.InBounds c.aw) : (writeOperand n v p).InBounds c.aw := by
  obtain ⟨hpa, hpb, hpd, hlen⟩ := hp
  have hbound (hn : 4 < n) : (BitVec.ofNat 64 v).toNat < 2 ^ c.aw := by
    unfold registerWidth at hwidth
    rw [if_neg (Nat.not_le.2 hn)] at hwidth
    split at hwidth <;> cases hwidth
    rw [BitVec.toNat_ofNat]
    exact (Nat.mod_le _ _).trans_lt hv
  unfold writeOperand
  split
  · exact ⟨hpa, hpb, hpd, hlen⟩
  · exact ⟨hpa, hpb, hpd, hlen⟩
  · exact ⟨hbound (by decide), hpb, hpd, hlen⟩
  · exact ⟨hpa, hbound (by decide), hpd, hlen⟩
  · exact ⟨hpa, hpb, hbound (by decide), hlen⟩
  · exact ⟨hpa, hpb, hpd, hbound (by decide)⟩
  · exact ⟨hpa, hpb, hpd, hlen⟩

theorem afterReset_inBounds (c : Config) (draw : Nat) : ∀ p ∈ portsAfterReset c draw, p.InBounds c.aw := by
  intro p hp
  obtain ⟨q, -, rfl⟩ := List.mem_map.1 hp
  have hfree (r : Nat) : (freeAddr c draw q r).toNat < 2 ^ c.aw := by
    rw [freeAddr, BitVec.toNat_ofNat]
    exact (Nat.mod_le _ _).trans_lt (Nat.mod_lt _ (Nat.two_pow_pos _))
  exact ⟨hfree 5, hfree 6, hfree 7, hfree 8⟩

theorem unbuilt_get (w : Width) : Tables.unbuilt.get w = none := by cases w <;> rfl

theorem unbuilt_valid (c : Config) : Tables.unbuilt.Valid c := by
  intro w ts h
  rw [unbuilt_get] at h
  cases h

section Keeps
variable {s : State} (hs : s.Wf)
include hs

theorem wf_cur {p : Nat} (hp : p < s.ports.length) : State.Wf { s with cur := p } :=
  { hs with cur := hs.ports ▸ hp }

theorem landed_wf {p : Nat} {f : Flight} (hf : s.flightOn p = some f) : (s.landed p).Wf := by
  obtain ⟨hmem, rfl⟩ := mem_of_flightOn hf
  obtain ⟨hport, -⟩ := hs.flights f hmem
  exact { hs with
    cur := hport
    flights := fun g hg => hs.flights g (List.mem_of_mem_filter hg)
    oneEach := hs.oneEach.filter _ }

theorem started_wf {p : Nat} (c : Word) (hp : p < s.ports.length) (hidle : ∀ f ∈ s.inFlight, f.port ≠ p) :
    State.Wf { s with
      inFlight := s.inFlight ++ [{ port := p, word := c, touches := touches c { s with cur := p } }] } :=
  { hs with
    flights := by
      intro f hf
      rcases List.mem_append.1 hf with hf | hf
      · exact hs.flights f hf
      · rw [List.mem_singleton.1 hf]
        exact ⟨hs.ports ▸ hp, fun r hr => touches_writes_inSpace (s := { s with cur := p }) hp hr⟩
    oneEach := by
      refine List.pairwise_append.2 ⟨hs.oneEach, List.pairwise_singleton .., fun f hf g hg => ?_⟩
      rw [List.mem_singleton.1 hg]
      exact hidle f hf }

theorem hostReset_wf {t : State} (ht : hostReset s = .next t) : t.Wf := by
  cases ht
  obtain ⟨-, -, hnports⟩ := hs.legal
  exact {
    legal := hs.legal
    ports := by simp [portsAfterReset]
    cur := hnports
    regs := afterReset_inBounds s.cfg s.draws
    mem := memAfterReset_wf hs.mem _ _
    space := by
      refine memAfterReset_below hs.space _ fun r hr x hx => ?_
      obtain ⟨f, -, hf⟩ := List.mem_flatMap.1 hr
      obtain ⟨rfl, -⟩ := mem_destinationsOf.1 hf
      exact (clip_contains.1 hx).2
    tables := unbuilt_valid s.cfg
    flights := fun f hf => absurd hf List.not_mem_nil
    oneEach := List.Pairwise.nil }

theorem performed_wf {a : HostAction} {t : State} (hheld : s.holding? a = none) (h : Performed s a t) : t.Wf := by
  cases h with
  | command p v _ hp hv hrace hrun => exact runWord_wf (wf_cur hs hp) hrun
  | written p n v width hp hn hwidth hv => exact wf_modifyPortAt hs p fun q => writeOperand_inBounds hwidth hv
  | read | loaded => exact { hs with }
  | stored addr bytes hok hrace =>
    exact { hs with mem := writeBytes_wf hs.mem _ _, space := writeBytes_below hs.space _ hok.1 }
  | started p c hp hrace hrun =>
    refine started_wf hs c hp (flightOn_eq_none.1 ?_)
    simpa [State.holding?, HostAction.heldPort?] using hheld
  | nothing => exact hs
  | built p f u hf hrun =>
    have hu := runWord_wf (landed_wf hs hf) hrun
    have hcfg : u.cfg = s.cfg := (runWord_cfg hrun :)
    exact { hs with tables := fun w ts hts => hcfg ▸ hu.tables w ts hts }
  | finished p f _ hf hrun => exact runWord_wf (landed_wf hs hf) hrun
  | reset _ ht => exact hostReset_wf hs ht

end Keeps

/-- Settles O57: the host's sequence is no part of well-formedness, and every action that is performed keeps it. -/
theorem stepKeepsStatesWellFormed : Obligations.StepKeepsStatesWellFormed := by
  intro s t hs h
  rcases step_performed h with ⟨-, -, rfl⟩ | ⟨a, rest, hheld, hp, -⟩
  · exact hs
  · exact performed_wf (s := { s with host := rest }) { hs with } hheld hp

/-- Settles O58: registers cut to `AW` bits, empty memory, nothing built and nothing in flight. -/
theorem resetStateIsWellFormed : Obligations.ResetStateIsWellFormed := by
  intro c hc
  have ⟨_, _, hnports⟩ := hc
  exact {
    legal := hc
    ports := by simp [State.resetWith, portsAfterReset]
    cur := hnports
    regs := afterReset_inBounds c 0
    mem := ⟨List.Pairwise.nil, fun d hd => absurd hd List.not_mem_nil⟩
    space := fun d hd => absurd hd List.not_mem_nil
    tables := unbuilt_valid c
    flights := fun f hf => absurd hf List.not_mem_nil
    oneEach := List.Pairwise.nil }

/-! ### What a command does on a well-formed state -/

/-- On a well-formed state `get_tables(w)` gives the table set of the parameters, exactly when they build, whether the width was
built before or not (40_field_tables.md R104, R106). -/
theorem getTables_of_wf {s : State} (hs : s.Wf) (w : Width) : s.getTables w =
    if buildOk w (s.cfg.poly w) (s.cfg.gen w) then some (s.fieldOf w, { s with tables := s.tablesWith w }) else none := by
  unfold State.getTables
  cases hget : s.tables.get w with
  | none => rfl
  | some ts =>
    obtain ⟨rfl, hbuild⟩ := hs.tables w ts hget
    simp [hbuild, State.tablesWith, State.fieldOf, tables_set_get hget]

theorem afterBuild_of_wf {s : State} (hs : s.Wf) (w : Width) (k : TableSet → State → Out) : s.afterBuild w k =
    if buildOk w (s.cfg.poly w) (s.cfg.gen w) then k (s.fieldOf w) { s with tables := s.tablesWith w }
    else .next (s.onlyErr .configurationError) := by
  unfold State.afterBuild
  rw [getTables_of_wf hs]
  cases buildOk w (s.cfg.poly w) (s.cfg.gen w) <;> rfl

/-- The outcome with other tables in the state it answers. -/
def withTables (tb : Tables) : Out → Out
  | .next t => .next { t with tables := tb }
  | .fault r => .fault r
  | .refused r => .refused r

section Rebuilt
variable {s : State} {tb : Tables} (hs : s.Wf) (htb : State.Wf { s with tables := tb })
include hs htb

/-- Step 5 does the same whatever is built, up to the tables, if the command's end does. -/
theorem afterBuild_withTables (w : Width) (x : Tables) {k : TableSet → State → Out}
    (hk : ∀ ts tb', withTables x (k ts { s with tables := tb' }) = withTables x (k ts s)) :
    withTables x (State.afterBuild { s with tables := tb } w k) = withTables x (s.afterBuild w k) := by
  rw [afterBuild_of_wf hs, afterBuild_of_wf htb]
  cases buildOk w (s.cfg.poly w) (s.cfg.gen w)
  · rfl
  · exact (hk _ _).trans (hk _ _).symm

/-- A command does the same whatever is built, up to the tables. -/
theorem exec_withTables (i : Instr) (x : Tables) :
    withTables x (exec i { s with tables := tb }) = withTables x (exec i s) := by
  cases i with
  | initField wc =>
    cases wc with
    | unsupported => rfl
    | supported w =>
      simp only [exec, execInitField_supported]
      exact afterBuild_withTables hs htb w x fun _ _ => rfl
  | multiply wc =>
    cases wc with
    | unsupported => rfl
    | supported w =>
      simp only [exec, execMultiply_supported]
      show withTables x (ite (fits w s.port.ea && fits w s.port.eb) _ _) = _
      split
      · exact afterBuild_withTables hs htb w x fun _ _ => rfl
      · rfl
  | divide wc =>
    cases wc with
    | unsupported => rfl
    | supported w =>
      simp only [exec, execDivide_supported]
      show withTables x (ite (fits w s.port.ea && fits w s.port.eb) (ite (s.port.eb = 0#32) _ _) _) = _
      split
      · split
        · rfl
        · exact afterBuild_withTables hs htb w x fun _ _ => rfl
      · rfl
  | inverse wc =>
    cases wc with
    | unsupported => rfl
    | supported w =>
      simp only [exec, execInverse_supported]
      show withTables x (ite (fits w s.port.ea) (ite (s.port.ea = 0#32) _ _) _) = _
      split
      · split
        · rfl
        · exact afterBuild_withTables hs htb w x fun _ _ => rfl
      · rfl
  | regionXor =>
    show withTables x (execRegionXor _) = withTables x (execRegionXor s)
    cases h : xorProblem s.cfg s.port with
    | some r => rw [execRegionXor_of_problem h, execRegionXor_of_problem (s := { s with tables := tb }) h]
    | none => rw [execRegionXor_of_no_problem h, execRegionXor_of_no_problem (s := { s with tables := tb }) h]; rfl
  | regionMultiply wc acc =>
    cases wc with
    | unsupported => rfl
    | supported w =>
      simp only [exec, execRegionMultiply_supported]
      show withTables x (ite (fits w s.port.ea) (ite (wholeElements w s.port.len) _ _) _) = _
      split
      · split
        · refine afterBuild_withTables hs htb w x fun ts tb' => ?_
          show withTables x (s.scaleRegion w acc ts _) = withTables x (s.scaleRegion w acc ts s)
          unfold State.scaleRegion
          cases multiplyProblem s.cfg s.port acc <;> rfl
        · rfl
      · rfl

end Rebuilt

/-- Settles O33: the two outcomes are the same up to the tables. -/
theorem resultsDoNotDependOnWhatIsBuilt : Obligations.ResultsDoNotDependOnWhatIsBuilt := by
  intro i s t tb hs htb h
  have heq := exec_withTables hs htb i t.tables
  rw [h] at heq
  cases ho : exec i { s with tables := tb } with
  | next t' =>
    rw [ho] at heq
    injection heq with heq
    exact ⟨t', rfl, (congrArg State.ports heq :), (congrArg State.mem heq :)⟩
  | fault r => rw [ho] at heq; cases heq
  | refused r => rw [ho] at heq; cases heq

/-! ### Empty regions -/

/-- An empty region inside the address space is valid for every access (20_memory.md R56). -/
theorem regionOk_of_empty {c : Config} {r : Range} (hlen : r.len = 0) (hbase : r.base < 2 ^ c.aw) (acc : Access) :
    RegionOk c acc r := by
  refine ⟨by omega, fun x hx => ?_⟩
  unfold Range.contains at hx
  omega

theorem noPartialOverlap_of_empty {d r : Range} (hlen : d.len = 0) : NoPartialOverlap d r := by
  refine .inr fun x hx => ?_
  unfold Range.contains at hx
  omega

section Empty
variable {s : State} (hs : s.Wf) (hlen : s.port.len = 0#64)
include hs hlen

theorem xorRegionsOk_of_empty : XorRegionsOk s := by
  obtain ⟨hpa, hpb, hpd, -⟩ := port_inBounds hs
  have hzero : s.port.len.toNat = 0 := by rw [hlen]; rfl
  exact ⟨regionOk_of_empty hzero hpa _, regionOk_of_empty hzero hpb _, regionOk_of_empty hzero hpd _,
    noPartialOverlap_of_empty hzero, noPartialOverlap_of_empty hzero⟩

theorem multiplyRegionsOk_of_empty (acc : Bool) : MultiplyRegionsOk s acc := by
  obtain ⟨hpa, -, hpd, -⟩ := port_inBounds hs
  have hzero : s.port.len.toNat = 0 := by rw [hlen]; rfl
  by_cases hc : s.port.ea = 0#32
  · exact .inl ⟨hc, regionOk_of_empty hzero hpd _⟩
  · exact .inr ⟨hc, regionOk_of_empty hzero hpa _, regionOk_of_empty hzero hpd _, noPartialOverlap_of_empty hzero⟩

end Empty

theorem scaledMemory_of_empty (en : Endian) (w : Width) (ts : TableSet) (acc : Bool) {p : Port} (hlen : p.len = 0#64)
    (m : Memory) : scaledMemory en w ts acc p m = m := by
  simp [scaledMemory, scalePositions, hlen]

/-- Settles O45: empty regions are valid, and there is no position to write. -/
theorem emptyRegionAccessesNothing : Obligations.EmptyRegionAccessesNothing := by
  intro s w acc hs hlen
  constructor
  · rw [exec, execRegionXor_of_no_problem (xorProblem_eq_none.2 (xorRegionsOk_of_empty hs hlen)), hlen]; rfl
  · intro hbuild hea
    have hfits : fits w s.port.ea = true := decide_eq_true hea
    have hwhole : wholeElements w s.port.len = true := by simp [wholeElements, hlen]
    rw [exec, execRegionMultiply_supported, if_pos hfits, if_pos hwhole, afterBuild_of_wf hs, if_pos hbuild, State.scaleRegion,
      multiplyProblem_eq_none.2 (multiplyRegionsOk_of_empty hs hlen acc)]
    simp only [scaledMemory_of_empty _ _ _ _ hlen]
    rfl

end Sys2Proof.Machine
end

section
/-! PROOFS. The host interface of an idle engine (10_state.md R21 to R28, R37, R38): what a step does with the host's next action,
what a host reads and writes, and the layout of `STATUS`. -/

namespace Sys2Proof.Machine

/-! ### A step of an idle port -/

/-- An access to the registers of a port with no command in flight is performed at once. -/
theorem step_of_idle {s : State} {a : HostAction} {rest : List HostAction} {p : Nat} (hhost : s.host = a :: rest)
    (hport : a.heldPort? = some p) (hidle : ∀ f ∈ s.inFlight, f.port ≠ p) : step s = perform a { s with host := rest } := by
  rw [step, hhost]
  simp [nextAction, State.holding?, hport, flightOn_eq_none.2 hidle]

/-- What a command in flight does when it completes. -/
theorem finishOn_of_flight {s : State} {p : Nat} {f : Flight} (h : s.flightOn p = some f) :
    finishOn p s = runWord f.word (s.landed p) := by
  rw [finishOn, h]

/-- A host write of a command word that races with no command in flight runs the word (10_state.md R27). -/
theorem hostWrite_command {s : State} {p : Nat} {c : Word} (hp : p < s.ports.length)
    (hraces : ∀ f ∈ s.inFlight, ¬ f.Races { s with cur := p } c) :
    hostWrite p 0 c.toNat s = runWord c { s with cur := p } := by
  have hrace : State.races { s with cur := p } c = false := by
    rw [← Bool.not_eq_true, races_iff]
    rintro ⟨f, hf, hr⟩
    exact hraces f hf hr
  simp [hostWrite, writeCommand, registerWidth, Nat.not_le.2 hp, Nat.not_le.2 c.isLt, hrace]

/-- Settles O5: the port is idle, so the write is performed, and it runs the word. -/
theorem stepRunsTheCommandWritten : Obligations.StepRunsTheCommandWritten := by
  intro s p c rest hhost hp hidle hraces
  have hstep : step s = runWord c { s with host := rest, cur := p } := by
    rw [step_of_idle hhost rfl hidle]
    exact hostWrite_command (s := { s with host := rest }) hp hraces
  refine ⟨fun i hi => ?_, fun r hr => ?_⟩
  · rw [hstep, runWord, hi]
  · rw [hstep, runWord, hr]; rfl

theorem decodeTableWord_eq_some {nbits w : Nat} {i : Instr} :
    decodeTableWord nbits w = some i ↔ decodeWord (BitVec.ofNat 32 (w % 2 ^ nbits)) = .ok i := by
  unfold decodeTableWord
  cases decodeWord (BitVec.ofNat 32 (w % 2 ^ nbits)) <;> simp

/-- Settles O6: with no command in flight nothing holds the write that was placed, and nothing races with it. -/
theorem placedWordIsRunNext : Obligations.PlacedWordIsRunNext := by
  intro s w i hports _ hi
  have hnone (P : Flight → Prop) : ∀ f ∈ (s.withFetchWord 32 w).inFlight, P f := fun _ hf => absurd hf List.not_mem_nil
  have hhost : (s.withFetchWord 32 w).host = .wr 0 0 (BitVec.ofNat 32 (w % 2 ^ 32)).toNat :: s.host := by
    simp [State.withFetchWord]
  obtain ⟨hexec, -⟩ := stepRunsTheCommandWritten _ 0 _ s.host hhost hports (hnone _) (hnone _)
  exact hexec i (decodeTableWord_eq_some.1 hi)

/-- Settles O7: the command in flight that began first is the one found on its port. -/
theorem idleWithoutHostAction : Obligations.IdleWithoutHostAction := by
  intro s hhost
  rcases step_cases s with ⟨-, hnone, hstep⟩ | ⟨-, f, fs, hflights, hstep⟩ | ⟨a, rest, p, hnext, -⟩ | ⟨a, rest, hnext, -⟩
  · exact ⟨fun _ => hstep, fun f fs hflights => (by simp [hnone] at hflights)⟩
  · refine ⟨fun hnone => (by simp [hflights] at hnone), fun g gs hg => ?_⟩
    obtain ⟨rfl, -⟩ := List.cons_eq_cons.1 (hflights.symm.trans hg)
    rw [hstep]
    exact finishOn_of_flight (by simp [State.flightOn, hflights])
  · rw [hhost] at hnext; cases hnext
  · rw [hhost] at hnext; cases hnext

/-! ### Reading and writing registers -/

theorem hostRead_of_register {s : State} {p n : Nat} {v : BitVec 64} (hp : p < s.ports.length)
    (hv : readRegister s p n = some v) : hostRead p n s = .next { s with seen := .register v :: s.seen } := by
  simp [hostRead, Nat.not_le.2 hp, hv]

/-- Settles O47, register by register. -/
theorem hostReadsRegisters : Obligations.HostReadsRegisters := by
  intro s p n rest hhost hp hidle hn
  have hstep {v : BitVec 64} (hv : readRegister s p n = some v) :
      step s = .next { s with host := rest, seen := .register v :: s.seen } := by
    rw [step_of_idle hhost rfl hidle]
    exact hostRead_of_register (s := { s with host := rest }) hp hv
  have hwide (x : Word) : (x.setWidth 64).toNat = x.toNat := BitVec.toNat_setWidth_of_le (by decide)
  interval_cases n <;> refine ⟨_, hstep rfl, ?_⟩ <;> simp [hwide]

theorem registerWidth_of_le {c : Config} {n : Nat} (hn : n ≤ 8) :
    registerWidth c n = some (if n ≤ 4 then 32 else c.aw) := by
  unfold registerWidth
  by_cases h : n ≤ 4 <;> simp [h, hn]

theorem registerWidth_eq_none {c : Config} {n : Nat} (hn : 9 ≤ n) : registerWidth c n = none := by
  unfold registerWidth
  rw [if_neg (by omega), if_neg (by omega)]

theorem readRegister_eq_none {s : State} {p n : Nat} (hn : 9 ≤ n) : readRegister s p n = none := by
  obtain ⟨k, rfl⟩ := Nat.exists_eq_add_of_le' hn
  rfl

theorem hostWrite_operand {s : State} {p n v : Nat} (hp : p < s.ports.length) (hn : 1 ≤ n) (hn8 : n ≤ 8)
    (hv : v < 2 ^ (if n ≤ 4 then 32 else s.cfg.aw)) :
    hostWrite p n v s = .next { s with ports := s.ports.set p (writeOperand n v (s.portAt p)) } := by
  rw [← modify_eq_set_portAt hp]
  simp only [hostWrite, registerWidth_of_le hn8, Nat.not_le.2 hp, Nat.not_le.2 hv, if_false, Nat.ne_of_gt hn]
  rfl

/-- Settles O48, register by register: the value fits the register, so it is stored as it is. -/
theorem hostWritesRegisters : Obligations.HostWritesRegisters := by
  intro s p n v rest hlegal hhost hp hidle hn hn8 hv
  refine ⟨writeOperand n v (s.portAt p), ?_, ?_⟩
  · rw [step_of_idle hhost rfl hidle]
    exact hostWrite_operand (s := { s with host := rest }) hp hn hn8 hv
  · have haddr (h : v < 2 ^ s.cfg.aw) : v < 2 ^ 64 := h.trans_le (Nat.pow_le_pow_right (by decide) hlegal.2.1)
    interval_cases n <;> simp [writeOperand] at hv haddr ⊢ <;> omega

/-- Settles O49: the port is idle, so the access is performed, and its check of the register or of the value refuses it. -/
theorem hostAccessesRefused : Obligations.HostAccessesRefused := by
  intro s p n v rest hp hidle
  refine ⟨fun hn hhost => ?_, fun hn hhost => ?_, fun hn hv hhost => ?_⟩ <;> rw [step_of_idle hhost rfl hidle]
  · simp [perform, hostRead, Nat.not_le.2 hp, readRegister_eq_none hn]
  · simp [perform, hostWrite, Nat.not_le.2 hp, registerWidth_eq_none hn]
  · simp only [perform, hostWrite, Nat.not_le.2 hp, registerWidth_of_le hn, hv, if_false, if_true]

/-! ### `STATUS` and the reset state -/

/-- Settles O46, for each of the six codes and the eight values of the `BUILT` flags. -/
theorem statusLayout : Obligations.StatusLayout := by
  intro s e
  unfold State.statusWord
  generalize s.built .w8 = b8
  generalize s.built .w16 = b16
  generalize s.built .w32 = b32
  revert b8 b16 b32
  cases e <;> decide

/-- Settles O56: with nothing built and no error every field of `STATUS` is 0. -/
theorem resetStateIsAsTheSpecSays : Obligations.ResetStateIsAsTheSpecSays := by
  refine ⟨rfl, fun c => ?_⟩
  have hbuilt (w : Width) : (State.resetWith c).built w = false := by rw [State.built, State.resetWith, unbuilt_get]; rfl
  refine ⟨rfl, hbuilt, by simp [State.resetWith, portsAfterReset], fun p hp => ?_, rfl⟩
  obtain ⟨q, -, rfl⟩ := List.mem_map.1 hp
  have herr : (Port.afterReset c 0 q).err = .none := rfl
  refine ⟨herr, ?_⟩
  rw [State.statusWord, hbuilt, hbuilt, hbuilt, herr]
  decide

end Sys2Proof.Machine
end

section
/-! PROOFS. What a memory operation reads and writes (20_memory.md R56, R60, R65): an operation confined to bytes it reads and
bytes it writes, which commutes with every operation that writes none of them; the elements of 20_memory.md R53; and the order of
the positions of the region commands. -/

namespace Sys2Proof.Machine

/-! ### Memory operations that read and write given bytes -/

/-- On canonical memory the operation writes at most the bytes at `writes`, and what it leaves there depends on nothing but the
bytes at `reads` and on what it overwrites. -/
structure Confined (f : Memory → Memory) (reads writes : Nat → Prop) : Prop where
  wf : ∀ {m : Memory}, m.wf → (f m).wf
  frame : ∀ {m : Memory}, m.wf → ∀ {x}, ¬ writes x → (f m).read x = m.read x
  depends : ∀ {m m' : Memory}, m.wf → m'.wf → (∀ x, reads x → m.read x = m'.read x) →
    ∀ {x}, m.read x = m'.read x → (f m).read x = (f m').read x

namespace Confined

variable {f g : Memory → Memory} {reads writes reads' writes' : Nat → Prop}

theorem id : Confined (fun m => m) reads writes := ⟨fun h => h, fun _ _ _ => rfl, fun _ _ _ _ h => h⟩

theorem mono (hf : Confined f reads writes) (hr : ∀ x, reads x → reads' x) (hw : ∀ x, writes x → writes' x) :
    Confined f reads' writes' :=
  ⟨hf.wf, fun hm _ hx => hf.frame hm fun h => hx (hw _ h), fun hm hm' hreads => hf.depends hm hm' fun x hx => hreads x (hr x hx)⟩

theorem comp (hf : Confined f reads writes) (hg : Confined g reads writes) : Confined (fun m => g (f m)) reads writes where
  wf hm := hg.wf (hf.wf hm)
  frame hm _ hx := (hg.frame (hf.wf hm) hx).trans (hf.frame hm hx)
  depends hm hm' hreads _ hx :=
    hg.depends (hf.wf hm) (hf.wf hm') (fun y hy => hf.depends hm hm' hreads (hreads y hy)) (hf.depends hm hm' hreads hx)

/-- Operations one after the other stay confined. -/
theorem foldl {α : Type} {step : Memory → α → Memory} {l : List α}
    (h : ∀ i ∈ l, Confined (step · i) reads writes) : Confined (l.foldl step) reads writes := by
  induction l with
  | nil => exact id
  | cons i l ih => exact (h i (by simp)).comp (ih fun j hj => h j (List.mem_cons_of_mem _ hj))

/-- An operation on a value that it takes from the bytes it reads. -/
theorem ofValue {α : Type} {op : α → Memory → Memory} {v : Memory → α} (h : ∀ a, Confined (op a) reads writes)
    (hv : ∀ m m' : Memory, (∀ x, reads x → m.read x = m'.read x) → v m = v m') :
    Confined (fun m => op (v m) m) reads writes where
  wf hm := (h _).wf hm
  frame hm _ hx := (h _).frame hm hx
  depends {m m'} hm hm' hreads _ hx := by
    rw [hv m m' hreads]
    exact (h _).depends hm hm' hreads hx

/-- Two operations of which neither writes a byte that the other reads or writes can change places (20_memory.md R65). -/
theorem commute (hf : Confined f reads writes) (hg : Confined g reads' writes')
    (hfg : ∀ x, writes x → ¬ reads' x ∧ ¬ writes' x) (hgf : ∀ x, writes' x → ¬ reads x) {m : Memory} (hm : m.wf) :
    g (f m) = f (g m) := by
  have hfm := hf.wf hm
  have hgm := hg.wf hm
  have hseen : ∀ x, reads x → (g m).read x = m.read x := fun x hx => hg.frame hm fun h => hgf x h hx
  have hseen' : ∀ x, reads' x → (f m).read x = m.read x := fun x hx => hf.frame hm fun h => (hfg x h).1 hx
  refine memory_ext (hg.wf hfm) (hf.wf hgm) fun x => ?_
  by_cases hx : writes x
  · have hx' := (hfg x hx).2
    exact (hg.frame hfm hx').trans (hf.depends hgm hm hseen (hg.frame hm hx')).symm
  · exact (hg.depends hfm hm hseen' (hf.frame hm hx)).trans (hf.frame hgm hx).symm

/-- Operations of which none writes a byte that another reads or writes give the same memory in every order. -/
theorem foldl_perm {α : Type} {step : Memory → α → Memory} {reads writes : α → Nat → Prop} {l l' : List α} (hl : l.Perm l')
    (h : ∀ i, Confined (step · i) (reads i) (writes i))
    (hapart : ∀ i ∈ l, ∀ j ∈ l, i ≠ j → ∀ x, writes i x → ¬ reads j x ∧ ¬ writes j x) {m : Memory} (hm : m.wf) :
    l.foldl step m = l'.foldl step m := by
  induction hl generalizing m with
  | nil => rfl
  | cons i _ ih =>
    exact ih (fun a ha b hb => hapart a (List.mem_cons_of_mem _ ha) b (List.mem_cons_of_mem _ hb)) ((h i).wf hm)
  | swap i j l =>
    by_cases hij : j = i
    · rw [hij]
    · have hswap : step (step m j) i = step (step m i) j :=
        (h j).commute (h i) (hapart j (by simp) i (by simp) hij)
          (fun x hx => (hapart i (by simp) j (by simp) (Ne.symm hij) x hx).1) hm
      simp only [List.foldl_cons, hswap]
  | trans hl₁ _ ih₁ ih₂ =>
    exact (ih₁ hapart hm).trans
      (ih₂ (fun a ha b hb => hapart a (hl₁.mem_iff.2 ha) b (hl₁.mem_iff.2 hb)) hm)

end Confined

/-- A write of one byte. -/
theorem confined_write (a : Nat) (v : Byte) {reads : Nat → Prop} : Confined (·.write a v) reads (· = a) where
  wf hm := write_wf hm a v
  frame hm _ hx := read_write_other hm hx v
  depends {m m'} hm hm' _ x hx := by
    by_cases hxa : x = a
    · rw [hxa, read_write_same hm, read_write_same hm']
    · rw [read_write_other hm hxa, read_write_other hm' hxa, hx]

/-! ### Elements in memory -/

theorem contains_mk {a n x : Nat} : Range.contains { base := a, len := n } x ↔ a ≤ x ∧ x < a + n := Iff.rfl

theorem confined_writeElem (en : Endian) (w : Width) (a : Nat) (v : Elem w) {reads : Nat → Prop} :
    Confined (·.writeElem en w a v) reads (Range.contains { base := a, len := w.bytes }) := by
  refine Confined.foldl fun k hk => (confined_write _ _).mono (fun _ h => h) ?_
  rintro x rfl
  have := List.mem_range.1 hk
  exact contains_mk.2 (by omega)

/-- An element that is read depends on its bytes only. -/
theorem readElem_congr {m m' : Memory} (en : Endian) (w : Width) (a : Nat)
    (h : ∀ x, Range.contains { base := a, len := w.bytes } x → m.read x = m'.read x) :
    m.readElem en w a = m'.readElem en w a := by
  refine List.foldl_ext _ _ _ fun v k hk => ?_
  have := List.mem_range.1 hk
  rw [h (a + k) (contains_mk.2 (by omega))]

theorem elemByte_eq_extractLsb' {w : Width} (e : Elem w) (k : Nat) : elemByte e k = e.extractLsb' (8 * k) 8 := by
  ext i hi
  simp [elemByte]

theorem elemByte_xor {w : Width} (e e' : Elem w) (k : Nat) : elemByte (e ^^^ e') k = elemByte e k ^^^ elemByte e' k := by
  ext i hi
  simp [elemByte]

theorem elemByte_zero {w : Width} (k : Nat) : elemByte (0#w.bits : Elem w) k = 0#8 := by
  ext i hi
  simp [elemByte]

theorem bits_eq_bytes (w : Width) : w.bits = 8 * w.bytes := by cases w <;> rfl

/-- A byte placed at byte `j` of an element is its byte `j`, and the others are 0. -/
theorem elemByte_shift {w : Width} (b : Byte) {j k : Nat} (hk : k < w.bytes) :
    elemByte (b.setWidth w.bits <<< (8 * j) : Elem w) k = if k = j then b else 0#8 := by
  have := bits_eq_bytes w
  ext i hi
  by_cases h : k = j
  · have hlow : 8 * k + i < w.bits ∧ i < w.bits := by omega
    simp [elemByte, ← h, hlow, BitVec.getLsbD_eq_getElem hi]
  · suffices 8 * j ≤ 8 * k + i → b.getLsbD (8 * k + i - 8 * j) = false by simpa [elemByte, h] using fun _ hj _ => this hj
    exact fun hj => BitVec.getLsbD_of_ge b _ (by omega)

/-- Elements with the same bytes are equal. -/
theorem elem_ext {w : Width} {e e' : Elem w} (h : ∀ k, k < w.bytes → elemByte e k = elemByte e' k) : e = e' := by
  have := bits_eq_bytes w
  refine BitVec.eq_of_getLsbD_eq fun i hi => ?_
  have hbyte := congrArg (·.getLsbD (i % 8)) (h (i / 8) (by omega))
  have hlt : i % 8 < 8 := by omega
  simpa [elemByte, Nat.div_add_mod, hlt] using hbyte

theorem byteIndex_lt (en : Endian) {n k : Nat} (hk : k < n) : byteIndex en n k < n := by
  cases en with
  | little => exact hk
  | big => simp only [byteIndex]; omega

/-- The two byte orders are each their own inverse. -/
theorem byteIndex_byteIndex (en : Endian) {n k : Nat} (hk : k < n) : byteIndex en n (byteIndex en n k) = k := by
  cases en with
  | little => rfl
  | big => simp only [byteIndex]; omega

/-- Of the bytes gathered at the offsets below `n`, the element holds each at its place. -/
theorem elemByte_gather (en : Endian) {w : Width} (b : Nat → Byte) {n k : Nat} (hk : k < w.bytes) (hn : n ≤ w.bytes) :
    elemByte ((List.range n).foldl (fun v j => v ^^^ (b j).setWidth w.bits <<< (8 * byteIndex en w.bytes j)) 0#w.bits : Elem w)
      (byteIndex en w.bytes k) = if k < n then b k else 0#8 := by
  induction n with
  | zero => exact elemByte_zero _
  | succ n ih =>
    rw [List.range_succ, List.foldl_append, List.foldl_cons, List.foldl_nil, elemByte_xor, ih (by omega),
      elemByte_shift _ (byteIndex_lt en hk)]
    by_cases hkn : k = n
    · simp [hkn]
    · have hne : byteIndex en w.bytes k ≠ byteIndex en w.bytes n := fun h => hkn <| by
        rw [← byteIndex_byteIndex en hk, h, byteIndex_byteIndex en hn]
      have hlt : k < n + 1 ↔ k < n := by omega
      simp [hne, hlt]

theorem elemByte_readElem (m : Memory) (en : Endian) {w : Width} (a : Nat) {k : Nat} (hk : k < w.bytes) :
    elemByte (m.readElem en w a) (byteIndex en w.bytes k) = m.read (a + k) := by
  rw [Memory.readElem, elemByte_gather en (fun k => m.read (a + k)) hk le_rfl, if_pos hk]

/-- Bytes written at ascending offsets are a store of bytes. -/
theorem foldl_write_eq_writeBytes (m : Memory) (a n : Nat) (v : Nat → Byte) :
    (List.range n).foldl (fun m k => m.write (a + k) (v k)) m = m.writeBytes a ((List.range n).map v) := by
  induction n generalizing m a v with
  | zero => rfl
  | succ n ih =>
    rw [List.range_succ_eq_map, List.foldl_cons, List.foldl_map, List.map_cons, List.map_map, Memory.writeBytes,
      ← ih (m.write a (v 0)) (a + 1) (v ∘ Nat.succ)]
    simp only [Nat.add_assoc, Nat.add_comm 1]
    rfl

theorem read_writeElem {m : Memory} (hm : m.wf) (en : Endian) {w : Width} (a : Nat) (v : Elem w) {k : Nat} (hk : k < w.bytes) :
    (m.writeElem en w a v).read (a + k) = elemByte v (byteIndex en w.bytes k) := by
  rw [Memory.writeElem, foldl_write_eq_writeBytes m a w.bytes fun k => elemByte v (byteIndex en w.bytes k)]
  obtain ⟨hread, -⟩ := read_writeBytes hm a ((List.range w.bytes).map fun k => elemByte v (byteIndex en w.bytes k))
  rw [hread k (by simpa using hk), List.getElem_map, List.getElem_range]

theorem readElem_writeElem {m : Memory} (hm : m.wf) (en : Endian) {w : Width} (a : Nat) (v : Elem w) :
    (m.writeElem en w a v).readElem en w a = v := by
  refine elem_ext fun k hk => ?_
  have hlt := byteIndex_lt en hk
  rw [← byteIndex_byteIndex en hk, elemByte_readElem _ _ _ hlt, read_writeElem hm en a v hlt]

/-- Settles O43, byte by byte: `byteIndex` is the rule of the byte order, and its own inverse. -/
theorem elementBytesFollowTheByteOrder : Obligations.ElementBytesFollowTheByteOrder := by
  intro m w addr v hm
  refine ⟨fun k hk => ?_, fun en => ⟨fun x hx => (confined_writeElem en w addr v (reads := fun _ => False)).frame hm hx,
    readElem_writeElem hm en addr v⟩⟩
  simp only [← elemByte_eq_extractLsb']
  exact ⟨elemByte_readElem m .little addr hk, elemByte_readElem m .big addr hk, read_writeElem hm .little addr v hk,
    read_writeElem hm .big addr v hk⟩

/-! ### The positions of the region commands -/

theorem confined_xorPosition (a b d i : Nat) :
    Confined (xorPosition a b d · i) (fun x => x = a + i ∨ x = b + i) (· = d + i) :=
  .ofValue (op := fun v m => m.write (d + i) v) (fun v => confined_write _ v) fun m m' h => by
    rw [h _ (.inl rfl), h _ (.inr rfl)]

theorem confined_clearPosition (d i : Nat) : Confined (clearPosition d · i) (fun _ => False) (· = d + i) :=
  confined_write _ _

/-- The bytes of element number `j` of a region at `base`. -/
def elemRange (w : Width) (base j : Nat) : Range := { base := base + j * w.bytes, len := w.bytes }

theorem confined_scalePosition (en : Endian) (w : Width) (ts : TableSet) (c : Elem w) (acc : Bool) (a d j : Nat) :
    Confined (scalePosition en w ts c acc a d · j)
      (fun x => (elemRange w a j).contains x ∨ acc = true ∧ (elemRange w d j).contains x) (elemRange w d j).contains := by
  refine .ofValue (op := fun v m => m.writeElem en w (d + j * w.bytes) v) (fun v => confined_writeElem en w _ v) fun m m' h => ?_
  rw [readElem_congr en w (a + j * w.bytes) fun x hx => h x (.inl hx)]
  cases acc with
  | false => rfl
  | true => rw [readElem_congr en w (d + j * w.bytes) fun x hx => h x (.inr ⟨rfl, hx⟩)]

/-- Two elements of regions of `n` elements that do not partially overlap share a byte only if they have the same number. -/
theorem elemRange_apart {w : Width} {d a n i j x : Nat} (hi : i < n) (hj : j < n) (hij : i ≠ j)
    (hover : NoPartialOverlap { base := d, len := n * w.bytes } { base := a, len := n * w.bytes })
    (hx : (elemRange w d i).contains x) : ¬ (elemRange w a j).contains x := by
  intro hy
  unfold NoPartialOverlap at hover
  have hover := hover.imp_right fun h => h x
  simp only [elemRange, contains_mk] at *
  cases w <;> simp only [Width.bytes] at * <;> omega

/-- Settles O35: without partial overlap no position writes a byte that another reads or writes. -/
theorem regionXorInAnyOrder : Obligations.RegionXorInAnyOrder := by
  intro m a b d n order hm hperm hda hdb
  refine Confined.foldl_perm hperm (confined_xorPosition a b d) (fun i hi j hj hij x hx => ?_) hm
  subst hx
  have hi := List.mem_range.1 (hperm.mem_iff.1 hi)
  have hj := List.mem_range.1 (hperm.mem_iff.1 hj)
  have hda := hda.imp_right fun h => h (d + i)
  have hdb := hdb.imp_right fun h => h (d + i)
  simp only [contains_mk] at hda hdb
  omega

/-- Settles O41: without partial overlap no element is written that another reads or writes, and the cleared bytes differ. -/
theorem regionMultiplyInAnyOrder : Obligations.RegionMultiplyInAnyOrder := by
  intro m en w ts c acc a d n order hm hperm
  have hlt {i : Nat} (hi : i ∈ order) : i < n := List.mem_range.1 (hperm.mem_iff.1 hi)
  refine ⟨fun hover => ?_, ?_⟩
  · refine Confined.foldl_perm hperm (confined_scalePosition en w ts c acc a d) (fun i hi j hj hij x hx => ?_) hm
    have hd := elemRange_apart (hlt hi) (hlt hj) hij (.inl rfl) hx
    exact ⟨not_or.2 ⟨elemRange_apart (hlt hi) (hlt hj) hij hover hx, fun h => hd h.2⟩, hd⟩
  · refine Confined.foldl_perm hperm (confined_clearPosition d) (fun i _ j _ hij x hx => ⟨id, ?_⟩) hm
    omega

/-! ### The region commands -/

/-- An address is read. -/
def Footprint.loads (a : Footprint) (x : Nat) : Prop := ∃ r ∈ a.reads, r.contains x

theorem contains_of_elemRange {w : Width} {base len j x : Nat} (hj : j < len / w.bytes) (hx : (elemRange w base j).contains x) :
    Range.contains { base := base, len := len } x := by
  simp only [elemRange, contains_mk] at *
  cases w <;> simp only [Width.bytes] at * <;> omega

/-- `region_xor` reads and writes the regions it accesses (20_memory.md R56). -/
theorem confined_regionXor (p : Port) :
    Confined (xorPositions p.pa.toNat p.pb.toNat p.pd.toNat · (List.range p.len.toNat))
      (regionsOf .regionXor p).loads (regionsOf .regionXor p).stores := by
  refine .foldl fun i hi => (confined_xorPosition _ _ _ i).mono (fun x hx => ?_) fun x hx => ?_
  all_goals have hi := List.mem_range.1 hi
  · rcases hx with rfl | rfl
    · exact ⟨p.rangeA, by simp [regionsOf], contains_mk.2 (by omega)⟩
    · exact ⟨p.rangeB, by simp [regionsOf], contains_mk.2 (by omega)⟩
  · subst hx
    exact ⟨p.rangeD, by simp [regionsOf], contains_mk.2 (by omega)⟩

/-- `region_multiply` reads and writes the regions it accesses (20_memory.md R56, 42_region_ops.md R146). -/
theorem confined_regionMultiply (en : Endian) (w : Width) (wc : WidthCode) (ts : TableSet) (acc : Bool) (p : Port) :
    Confined (scaledMemory en w ts acc p) (regionsOf (.regionMultiply wc acc) p).loads
      (regionsOf (.regionMultiply wc acc) p).stores := by
  unfold scaledMemory regionsOf Footprint.loads Footprint.stores
  by_cases hc : p.ea = 0#32
  · cases acc with
    | true => simpa [hc] using .id
    | false =>
      simp only [hc, if_true, Bool.false_eq_true, if_false]
      refine .foldl fun i hi => (confined_clearPosition _ i).mono (fun _ h => h.elim) fun x hx => ?_
      have hi := List.mem_range.1 hi
      exact ⟨p.rangeD, by simp, contains_mk.2 (by omega)⟩
  · simp only [hc, if_false]
    refine .foldl fun j hj => (confined_scalePosition _ _ _ _ _ _ _ j).mono (fun x hx => ?_) fun x hx => ?_
    all_goals have hj := List.mem_range.1 hj
    · rcases hx with hx | ⟨rfl, hx⟩
      · exact ⟨p.rangeA, by cases acc <;> simp, contains_of_elemRange hj hx⟩
      · exact ⟨p.rangeD, by simp, contains_of_elemRange hj hx⟩
    · exact ⟨p.rangeD, by simp, contains_of_elemRange hj hx⟩

/-- Settles O31, by the ways a command completes: only a region command changes memory, and only where it stores. -/
theorem commandsWriteOnlyTheirDestination : Obligations.CommandsWriteOnlyTheirDestination := by
  intro c s t x hm h hx
  rcases runWord_completes h with ⟨-, rfl⟩ | ⟨i, hi, hc⟩
  · rfl
  · have hout (hregion : i = .regionXor ∨ ∃ w acc, i = .regionMultiply w acc) : ¬ (regionsOf i s.port).stores x := by
      rintro ⟨r, hr, hrx⟩
      rw [eq_rangeD_of_mem_regionsOf hr] at hrx
      rcases hx with ⟨hnotXor, hnotMul⟩ | hx
      · rcases hregion with rfl | ⟨w, acc, rfl⟩
        · exact hnotXor hi
        · exact hnotMul w acc hi
      · exact hx hrx
    cases hc with
    | raised | built | delivered => rfl
    | xored => exact (confined_regionXor s.port).frame hm (hout (.inl rfl))
    | scaled w acc ts => exact (confined_regionMultiply _ w _ ts acc s.port).frame hm (hout (.inr ⟨_, _, rfl⟩))

end Sys2Proof.Machine
end

section
/-! PROOFS. Commands of several ports at the same time (20_memory.md R64 to R67, 70_reset_and_hazards.md R195): which host actions a
command in flight makes a race, what the actions `start`, `build` and `finish` do, and commands that can change places. -/

namespace Sys2Proof.Machine

/-! ### Host accesses to memory -/

/-- An action that reaches no register is performed at once. -/
theorem step_of_unheld {s : State} {a : HostAction} {rest : List HostAction} (hhost : s.host = a :: rest)
    (hfree : a.heldPort? = none) : step s = perform a { s with host := rest } := by
  rw [step, hhost]
  simp [nextAction, State.holding?, hfree]

/-- A store races with a command in flight exactly when it meets its destination or one of its source regions. -/
theorem hostRaces_store {s : State} {r : Range} : s.hostRaces { reads := [], writes := [r] } = true ↔
    ∃ g ∈ s.inFlight, g.destinationHas s r.contains ∨ g.sourceHas s r.contains := by
  have haccesses : Footprint.accesses { reads := [], writes := [r] } = r.contains := by
    funext x; simp [Footprint.accesses]
  have hstores : Footprint.stores { reads := [], writes := [r] } = r.contains := by
    funext x; simp [Footprint.stores]
  simp only [hostRaces_iff, State.namedBy, namedOf_conflict_iff, haccesses, hstores, Flight.destinationHas, Flight.sourceHas]

/-- A load races with a command in flight exactly when it meets its destination region. -/
theorem hostRaces_load {s : State} {r : Range} : s.hostRaces { reads := [r], writes := [] } = true ↔
    ∃ g ∈ s.inFlight, g.destinationHas s r.contains := by
  have haccesses : Footprint.accesses { reads := [r], writes := [] } = r.contains := by
    funext x; simp [Footprint.accesses]
  have hsource {c : Word} {p : Port} : ¬ SourceHas c p (Footprint.stores { reads := [r], writes := [] }) := by
    simp [sourceHas_iff, Footprint.stores]
  simp only [hostRaces_iff, State.namedBy, namedOf_conflict_iff, haccesses, hsource, or_false, Flight.destinationHas]

/-- A host access to a region the host may access is a race, or it is done. -/
theorem hostAccess_of_ok {r : Range} {f : Footprint} {s done : State} (hok : HostRegionOk s.cfg r) :
    hostAccess r f s done = if s.hostRaces f then .refused .race else .next done := by
  obtain ⟨hspace, hdevice⟩ := hostRegionOk_iff.1 hok
  simp [hostAccess, hspace, hdevice]

theorem step_store {s : State} {addr : Nat} {bs : List Byte} {rest : List HostAction} (hhost : s.host = .st addr bs :: rest)
    (hok : HostRegionOk s.cfg { base := addr, len := bs.length }) :
    step s = if s.hostRaces { reads := [], writes := [{ base := addr, len := bs.length }] } then .refused .race
      else .next { s with host := rest, mem := s.mem.writeBytes addr bs } := by
  rw [step_of_unheld hhost rfl]
  exact hostAccess_of_ok (s := { s with host := rest }) hok

theorem step_load {s : State} {addr n : Nat} {rest : List HostAction} (hhost : s.host = .ld addr n :: rest)
    (hok : HostRegionOk s.cfg { base := addr, len := n }) :
    step s = if s.hostRaces { reads := [{ base := addr, len := n }], writes := [] } then .refused .race
      else .next { s with host := rest, seen := .bytes (s.mem.readBytes addr n) :: s.seen } := by
  rw [step_of_unheld hhost rfl]
  exact hostAccess_of_ok (s := { s with host := rest }) hok

/-! ### Commands that race -/

/-- A command accesses the regions of its command word on its registers, or none. -/
theorem touches_cases (c : Word) (s : State) : touches c s = { reads := [], writes := [] } ∨
    ∃ i, decodeWord c = .ok i ∧ touches c s = regionsOf i s.port := by
  unfold touches
  split
  · next i t hi ht =>
    split
    · exact .inr ⟨i, hi, rfl⟩
    · exact .inl rfl
  · exact .inl rfl

/-- What a command accesses lies in regions that its operands name, and what it writes in its destination region. -/
theorem regionsOf_subset_named (i : Instr) (p : Port) :
    (regionsOf i p).reads ⊆ (namedRegions i p).reads ++ (namedRegions i p).writes ∧
      (regionsOf i p).writes ⊆ (namedRegions i p).writes := by
  cases i with
  | initField | multiply | divide | inverse => exact ⟨List.nil_subset _, List.nil_subset _⟩
  | regionXor => exact ⟨List.subset_append_left .., List.Subset.refl _⟩
  | regionMultiply wc acc => by_cases hc : p.ea = 0#32 <;> cases acc <;> simp [regionsOf, namedRegions, hc]

theorem touches_subset_named (c : Word) (s : State) :
    (touches c s).reads ⊆ (namedOf c s.port).reads ++ (namedOf c s.port).writes ∧
      (touches c s).writes ⊆ (namedOf c s.port).writes := by
  rcases touches_cases c s with h | ⟨i, hi, h⟩
  · rw [h]; exact ⟨List.nil_subset _, List.nil_subset _⟩
  · rw [h, namedOf, hi]; exact regionsOf_subset_named i s.port

/-- Accesses that conflict make a race: each lies in a region its command names. -/
theorem races_of_conflict {f : Flight} {s : State} {c : Word} (h : Conflict f.touches (touches c s)) : f.Races s c := by
  obtain ⟨hreads, hwrites⟩ := touches_subset_named c s
  obtain ⟨x, ⟨hstore, q, hq, hqx⟩ | ⟨⟨r, hr, hrx⟩, haccess⟩⟩ := h
  · have hq : q ∈ (namedOf c s.port).reads ++ (namedOf c s.port).writes := by
      rcases List.mem_append.1 hq with hq | hq
      · exact hreads hq
      · exact List.mem_append_right _ (hwrites hq)
    rcases List.mem_append.1 hq with hq | hq
    · exact .inr (.inr (.inr (.inl (sourceHas_iff.2 ⟨x, ⟨q, hq, hqx⟩, hstore⟩))))
    · obtain ⟨r, hr, hrx⟩ := hstore
      exact .inr (.inr (.inl (destinationHas_iff.2 ⟨x, ⟨q, hq, hqx⟩, r, List.mem_append_right _ hr, hrx⟩)))
  · exact .inr (.inr (.inl (destinationHas_iff.2 ⟨x, ⟨r, hwrites hr, hrx⟩, haccess⟩)))

/-- Settles O53: the test of the machine is the rules', on an idle port for a command and at once for a host access to memory. -/
theorem racesAreRefused : Obligations.RacesAreRefused := by
  refine ⟨fun s rest f hf => ⟨fun p c hp hidle hraces => ?_, fun addr bs hhost hok hmeets => ?_, fun addr n hhost hok hmeets => ?_⟩,
    fun s rest addr bs hm hhost hok hfree => ?_, fun s rest addr n hhost hok hfree => ?_⟩
  · have hrace : State.races { s with host := rest, cur := p } c = true :=
      races_iff.2 ⟨f, hf, hraces.elim id races_of_conflict⟩
    refine ⟨fun hhost => ?_, fun hhost => ?_⟩ <;> rw [step_of_idle hhost rfl hidle]
    · simp [perform, hostWrite, writeCommand, registerWidth, Nat.not_le.2 hp, Nat.not_le.2 c.isLt, hrace]
    · simp [perform, startOn, Nat.not_le.2 hp, hrace]
  · rw [step_store hhost hok, if_pos (hostRaces_store.2 ⟨f, hf, hmeets⟩)]
  · rw [step_load hhost hok, if_pos (hostRaces_load.2 ⟨f, hf, hmeets⟩)]
  · refine ⟨s.mem.writeBytes addr bs, ?_, ?_, fun x hx => ?_⟩
    · rw [step_store hhost hok, if_neg]
      rw [hostRaces_store]
      rintro ⟨g, hg, hmeets⟩
      obtain ⟨hdestination, hsource⟩ := hfree g hg
      exact hmeets.elim hdestination hsource
    · exact (read_writeBytes hm addr bs).1
    · rw [contains_mk] at hx
      exact (read_writeBytes hm addr bs).2 x (by omega)
  · rw [step_load hhost hok, if_neg]
    · rfl
    · rw [hostRaces_load]
      rintro ⟨g, hg, hmeets⟩
      exact hfree g hg hmeets

end Sys2Proof.Machine
end

section
/-! PROOFS. The effect of a command on a well-formed state, as far as it is the same whatever the other ports, the host and memory
hold (20_memory.md R65, R67), and the actions `start`, `build` and `finish` (60_exceptions.md R182). -/

namespace Sys2Proof.Machine

/-! ### What a command does, whatever the rest of the machine holds -/

/-- What a command that completes does: the result and the error it leaves in its port, the width it builds, if any, and what it
does to memory. -/
structure Effect where
  er : Word
  err : ErrCode
  build : Option Width
  mem : Memory → Memory

/-- The tables once a width is built from the parameters, if one is (40_field_tables.md R104). -/
def buildTables (c : Config) : Option Width → Tables → Tables
  | none, tb => tb
  | some w, tb => tb.set w { poly := c.poly w, gen := c.gen w }

/-- The state as a command of this effect leaves it. -/
def Effect.apply (e : Effect) (s : State) : State := s.ended e.er e.err (buildTables s.cfg e.build s.tables) (e.mem s.mem)

/-- An error, and nothing else (60_exceptions.md R177). -/
def Effect.raised (p : Port) (e : ErrCode) : Effect := { er := p.er, err := e, build := none, mem := fun m => m }

theorem onlyErr_eq_apply (s : State) (e : ErrCode) : s.onlyErr e = (Effect.raised s.port e).apply s := onlyErr_eq_ended s e

/-- The state is well formed, with the parameters `c` and with the registers `p` on the executing port: all that the checks of a
command look at. -/
structure Shows (c : Config) (p : Port) (u : State) : Prop where
  wf : u.Wf
  cfg : u.cfg = c
  port : u.port = p

/-- The command `k` is refused on every state that shows `c` and `p`, or it has one and the same effect on all of them, which reads
and writes the regions `a` of memory, and none if it is an error. -/
def Determined (c : Config) (p : Port) (a : Footprint) (k : State → Out) : Prop :=
  (∃ r, ∀ u, Shows c p u → k u = .refused r) ∨
    ∃ e : Effect, Confined e.mem a.loads a.stores ∧ (e.err ≠ .none → e.mem = fun m => m) ∧
      ∀ u, Shows c p u → k u = .next (e.apply u)

namespace Determined

variable {c : Config} {p : Port} {a : Footprint} {k k' : State → Out}

theorem refused (r : Refusal) (h : ∀ u, Shows c p u → k u = .refused r) : Determined c p a k := .inl ⟨r, h⟩

theorem raised (e : ErrCode) : Determined c p a fun s => .next (s.onlyErr e) := by
  refine .inr ⟨.raised p e, .id, fun _ => rfl, fun u hu => ?_⟩
  obtain rfl := hu.port
  exact congrArg _ (onlyErr_eq_apply u e)

/-- A command that completes without an error. -/
theorem completed (er : Word) (build : Option Width) {f : Memory → Memory} (hf : Confined f a.loads a.stores)
    (h : ∀ u, Shows c p u → k u = .next (u.ended er .none (buildTables u.cfg build u.tables) (f u.mem))) : Determined c p a k :=
  .inr ⟨{ er := er, err := .none, build := build, mem := f }, hf, fun hne => absurd rfl hne, h⟩

theorem congr (h : ∀ u, Shows c p u → k u = k' u) (hk : Determined c p a k') : Determined c p a k :=
  hk.imp (fun ⟨r, hr⟩ => ⟨r, fun u hu => (h u hu).trans (hr u hu)⟩)
    fun ⟨e, hmem, herr, he⟩ => ⟨e, hmem, herr, fun u hu => (h u hu).trans (he u hu)⟩

/-- A check on the registers of the executing port. -/
theorem ite (P : Port → Prop) [DecidablePred P] (hk : Determined c p a k) (hk' : Determined c p a k') :
    Determined c p a fun s => if P s.port then k s else k' s := by
  by_cases hP : P p
  · exact hk.congr fun u hu => if_pos (hu.port ▸ hP)
  · exact hk'.congr fun u hu => if_neg (hu.port ▸ hP)

/-- Step 5 of 60_exceptions.md R176. -/
theorem afterBuild (w : Width) {k : State → TableSet → State → Out}
    (hk : Determined c p a fun s => k s (s.fieldOf w) { s with tables := s.tablesWith w }) :
    Determined c p a fun s => s.afterBuild w (k s) := by
  cases hb : buildOk w (c.poly w) (c.gen w) with
  | true => exact hk.congr fun u hu => by rw [afterBuild_of_wf hu.wf, hu.cfg, hb, if_pos rfl]
  | false => exact (raised .configurationError).congr fun u hu => by rw [afterBuild_of_wf hu.wf, hu.cfg, hb]; rfl

/-- The end of an element command. -/
theorem deliver {w : Width} (r : TableSet → Port → Elem w) :
    Determined c p a fun s => s.afterBuild w fun ts t => .next (t.deliver (r ts s.port)) := by
  refine afterBuild w (completed ((r { poly := c.poly w, gen := c.gen w } p).setWidth 32) (some w) .id fun u hu => ?_)
  obtain ⟨-, rfl, rfl⟩ := hu
  rfl

end Determined

/-- Every command is refused or has its effect by the parameters and the registers of its port alone. -/
theorem exec_determined (c : Config) (p : Port) (i : Instr) : Determined c p (regionsOf i p) (exec i) := by
  cases i with
  | initField wc =>
    cases wc with
    | unsupported => exact .raised .configurationError
    | supported w =>
      rw [show exec (.initField (.supported w)) = _ from funext (execInitField_supported w)]
      refine .afterBuild w (.completed p.er (some w) .id fun u hu => ?_)
      obtain rfl := hu.port
      exact congrArg _ (onlyErr_eq_ended _ _)
  | multiply wc =>
    cases wc with
    | unsupported => exact .raised .configurationError
    | supported w =>
      rw [show exec (.multiply (.supported w)) = _ from funext (execMultiply_supported w)]
      exact .ite (fun q => (fits w q.ea && fits w q.eb) = true)
        (.deliver fun ts q => gfMul w ts (elem w q.ea) (elem w q.eb)) (.raised .badOperand)
  | divide wc =>
    cases wc with
    | unsupported => exact .raised .configurationError
    | supported w =>
      rw [show exec (.divide (.supported w)) = _ from funext (execDivide_supported w)]
      exact .ite (fun q => (fits w q.ea && fits w q.eb) = true)
        (.ite (fun q => q.eb = 0#32) (.raised .divisionByZero) (.deliver fun ts q => gfDiv w ts (elem w q.ea) (elem w q.eb)))
        (.raised .badOperand)
  | inverse wc =>
    cases wc with
    | unsupported => exact .raised .configurationError
    | supported w =>
      rw [show exec (.inverse (.supported w)) = _ from funext (execInverse_supported w)]
      exact .ite (fun q => fits w q.ea = true)
        (.ite (fun q => q.ea = 0#32) (.raised .divisionByZero) (.deliver fun ts q => gfInv w ts (elem w q.ea)))
        (.raised .badOperand)
  | regionXor =>
    cases hregions : xorProblem c p with
    | some r =>
      refine .refused r fun u hu => execRegionXor_of_problem ?_
      rw [hu.cfg, hu.port, hregions]
    | none =>
      refine .completed p.er none (confined_regionXor p) fun u hu => ?_
      obtain ⟨-, rfl, rfl⟩ := hu
      rw [exec, execRegionXor_of_no_problem hregions, onlyErr_eq_ended]
      rfl
  | regionMultiply wc acc =>
    cases wc with
    | unsupported => exact .raised .configurationError
    | supported w =>
      rw [show exec (.regionMultiply (.supported w) acc) = _ from funext fun s => execRegionMultiply_supported w s acc]
      refine .ite (fun q => fits w q.ea = true) (.ite (fun q => wholeElements w q.len = true) (.afterBuild w ?_)
        (.raised .invalidLength)) (.raised .badOperand)
      cases hregions : multiplyProblem c p acc with
      | some r =>
        refine .refused r fun u hu => ?_
        rw [State.scaleRegion, hu.cfg, hu.port, hregions]
      | none =>
        refine .completed p.er (some w)
          (confined_regionMultiply c.elemEndian w _ { poly := c.poly w, gen := c.gen w } acc p) fun u hu => ?_
        obtain ⟨-, rfl, rfl⟩ := hu
        rw [State.scaleRegion, hregions, onlyErr_eq_ended]
        rfl

/-- A command word that completes does the same on every state that shows the same, and to no memory but what it touches. -/
theorem runWord_effect {c : Word} {s t : State} (hs : s.Wf) (h : runWord c s = .next t) :
    ∃ e : Effect, Confined e.mem (touches c s).loads (touches c s).stores ∧
      ∀ u, Shows s.cfg s.port u → runWord c u = .next (e.apply u) := by
  have hself : Shows s.cfg s.port s := ⟨hs, rfl, rfl⟩
  cases hd : decodeWord c with
  | error r =>
    refine ⟨.raised s.port .illegalCommand, .id, fun u hu => ?_⟩
    rw [runWord, hd, ← hu.port]
    exact congrArg _ (onlyErr_eq_apply u .illegalCommand)
  | ok i =>
    have hexec (u : State) : runWord c u = exec i u := by rw [runWord, hd]
    rcases exec_determined s.cfg s.port i with ⟨r, hr⟩ | ⟨e, hmem, herr, he⟩
    · rw [hexec, hr s hself] at h; cases h
    · refine ⟨e, ?_, fun u hu => by rw [hexec, he u hu]⟩
      by_cases hne : e.err = .none
      · have hport : (e.apply s).port.err = .none := by rw [Effect.apply, ended_port (cur_lt_ports hs)]; exact hne
        have htouches : touches c s = regionsOf i s.port := by
          rw [touches, hd, hexec, he s hself]
          exact if_pos hport
        rwa [htouches]
      · rw [herr hne]; exact .id

/-! ### Two commands on different ports -/

theorem buildTables_comm (c : Config) (b b' : Option Width) (tb : Tables) :
    buildTables c b (buildTables c b' tb) = buildTables c b' (buildTables c b tb) := by
  cases b with
  | none => rfl
  | some w =>
    cases b' with
    | none => rfl
    | some v => cases w <;> cases v <;> rfl

/-- Without a conflict what the one stores the other neither loads nor stores. -/
theorem apart_of_not_conflict {a b : Footprint} (h : ¬ Conflict a b) {x : Nat} (hx : a.stores x) : ¬ b.loads x ∧ ¬ b.stores x :=
  ⟨fun ⟨r, hr, hrx⟩ => h ⟨x, .inl ⟨hx, r, List.mem_append_left _ hr, hrx⟩⟩,
    fun ⟨r, hr, hrx⟩ => h ⟨x, .inl ⟨hx, r, List.mem_append_right _ hr, hrx⟩⟩⟩

theorem flightOn_landed_other {s : State} {p q : Nat} (hpq : p ≠ q) : (s.landed p).flightOn q = s.flightOn q := by
  simp only [State.flightOn, State.landed, List.find?_filter]
  refine congrArg (List.find? · s.inFlight) (funext fun f => ?_)
  by_cases hf : f.port = q
  · simp [hf, Ne.symm hpq]
  · simp [hf]

theorem shows_landed {s : State} (hs : s.Wf) {q : Nat} {g : Flight} (hg : s.flightOn q = some g) :
    Shows s.cfg (s.portAt q) (s.landed q) := ⟨landed_wf hs hg, rfl, rfl⟩

/-- The completion of a command leaves a command in flight on another port, with what it looks at (10_state.md R22). -/
theorem shows_after {s : State} (hs : s.Wf) {p q : Nat} (hpq : p ≠ q) {f g : Flight} {e : Effect} (hf : s.flightOn p = some f)
    (hg : s.flightOn q = some g) (hrun : runWord f.word (s.landed p) = .next (e.apply (s.landed p))) :
    (e.apply (s.landed p)).flightOn q = some g ∧ Shows s.cfg (s.portAt q) ((e.apply (s.landed p)).landed q) := by
  have hflight : (e.apply (s.landed p)).flightOn q = some g := (flightOn_landed_other hpq).trans hg
  exact ⟨hflight, landed_wf (runWord_wf (landed_wf hs hf) hrun) hflight, rfl,
    portAt_modify_other (s := s) (Ne.symm hpq) _⟩

/-- Two commands in flight that do not conflict complete in the one order as in the other (20_memory.md R65, R67). -/
theorem finishOn_comm {s s1 s2 : State} {p q : Nat} {f g : Flight} (hs : s.Wf) (hpq : p ≠ q) (hf : s.flightOn p = some f)
    (hg : s.flightOn q = some g) (hfree : ¬ Conflict (touches f.word (s.landed p)) (touches g.word (s.landed q)))
    (h1 : finishOn p s = .next s1) (h2 : finishOn q s1 = .next s2) :
    ∃ t1 t2, finishOn q s = .next t1 ∧ finishOn p t1 = .next t2 ∧
      t2.ports = s2.ports ∧ t2.tables = s2.tables ∧ t2.mem = s2.mem := by
  rw [finishOn_of_flight hf] at h1
  obtain ⟨e, hmem, hrun⟩ := runWord_effect (landed_wf hs hf) h1
  have hrun1 : runWord f.word (s.landed p) = .next (e.apply (s.landed p)) := hrun _ (shows_landed hs hf)
  obtain rfl := Host.Outcome.next.inj (h1.symm.trans hrun1)
  -- After the first command the second sees what it saw before, so each completes, with its effect, in either place.
  obtain ⟨hg1, hshows1⟩ := shows_after hs hpq hf hg hrun1
  rw [finishOn_of_flight hg1] at h2
  obtain ⟨t1, ht1⟩ : ∃ t1, runWord g.word (s.landed q) = .next t1 := by
    obtain ⟨e', -, hrun'⟩ := runWord_effect hshows1.wf h2
    refine ⟨_, hrun' _ ?_⟩
    rw [hshows1.cfg, hshows1.port]
    exact shows_landed hs hg
  obtain ⟨e', hmem', hrun'⟩ := runWord_effect (landed_wf hs hg) ht1
  have hrun1' : runWord g.word (s.landed q) = .next (e'.apply (s.landed q)) := hrun' _ (shows_landed hs hg)
  obtain ⟨hf1, hshows1'⟩ := shows_after hs (Ne.symm hpq) hg hf hrun1'
  obtain rfl := Host.Outcome.next.inj (h2.symm.trans (hrun' _ hshows1))
  refine ⟨_, e.apply ((e'.apply (s.landed q)).landed p), (finishOn_of_flight hg).trans hrun1',
    (finishOn_of_flight hf1).trans (hrun _ hshows1'), ?_, ?_, ?_⟩
  · exact List.modify_modify_ne _ _ s.ports (Ne.symm hpq)
  · exact buildTables_comm s.cfg e.build e'.build s.tables
  · exact (hmem.commute hmem' (fun x hx => apart_of_not_conflict hfree hx)
      (fun x hx => (apart_of_not_conflict (conflict_comm.not.1 hfree) hx).1) hs.mem).symm

/-! ### `start`, `build` and `finish` -/

/-- The beginning of a command that races with none in flight: it is in flight, or stops as the command does. -/
theorem startOn_of_free {s : State} {p : Nat} {c : Word} (hp : p < s.ports.length)
    (hraces : ∀ f ∈ s.inFlight, ¬ f.Races { s with cur := p } c) :
    (∀ t, runWord c { s with cur := p } = .next t → startOn p c s = .next { s with
      inFlight := s.inFlight ++ [{ port := p, word := c, touches := touches c { s with cur := p } }] }) ∧
      ∀ r, runWord c { s with cur := p } = .refused r → startOn p c s = .refused r := by
  have hrace : State.races { s with cur := p } c = false := by
    rw [← Bool.not_eq_true, races_iff]
    rintro ⟨f, hf, hr⟩
    exact hraces f hf hr
  refine ⟨fun t ht => ?_, fun r hr => ?_⟩
  · simp [startOn, Nat.not_le.2 hp, hrace, ht]
  · simp [startOn, Nat.not_le.2 hp, hrace, hr]

theorem finishOn_of_none {s : State} {p : Nat} (h : s.flightOn p = none) : finishOn p s = .next s := by
  rw [finishOn, h]

theorem buildOn_of_none {s : State} {p : Nat} (h : s.flightOn p = none) : buildOn p s = .next s := by
  rw [buildOn, h]

theorem buildOn_of_flight {s t : State} {p : Nat} {f : Flight} (h : s.flightOn p = some f)
    (hrun : runWord f.word (s.landed p) = .next t) : buildOn p s = .next { s with tables := t.tables } := by
  rw [buildOn, h]
  simp only [hrun]

/-- Settles O54: the actions do what their definitions say, and commands whose accesses do not conflict have the same effects in
both orders. -/
theorem concurrentCommandsCommute : Obligations.ConcurrentCommandsCommute := by
  refine ⟨fun s p c rest hhost hp hidle hraces => ?_, fun s p rest => ⟨fun hnone hhost => ?_, fun f hf =>
    ⟨fun hhost t ht => ?_, fun hhost => ?_⟩⟩, fun s s1 s2 p q f g hs hpq hf hg htf htg hfree h1 h2 => ?_⟩
  · rw [step_of_idle hhost rfl hidle]
    exact startOn_of_free (s := { s with host := rest }) hp hraces
  · rcases hhost with hhost | hhost <;> rw [step_of_unheld hhost rfl]
    · exact buildOn_of_none (s := { s with host := rest }) hnone
    · exact finishOn_of_none (s := { s with host := rest }) hnone
  · rw [step_of_unheld hhost rfl]
    exact buildOn_of_flight (s := { s with host := rest }) hf ht
  · rw [step_of_unheld hhost rfl]
    exact finishOn_of_flight (s := { s with host := rest }) hf
  · rw [htf, htg] at hfree
    exact finishOn_comm hs hpq hf hg hfree h1 h2

end Sys2Proof.Machine
end

section
/-! PROOFS. The command words (30_encoding.md R81 to R87): decoding and encoding are inverse to each other, the three classes of
words, and the two errors a word raises by itself. -/

namespace Sys2Proof.Machine

/-! ### The fields of a word -/

/-- The width field and the width it selects determine each other (30_encoding.md R82). -/
@[simp] theorem widthOfField_fieldOfWidth (w : WidthCode) : widthOfField (fieldOfWidth w) = w := by
  rcases w with (_ | _ | _) | _ <;> rfl

@[simp] theorem fieldOfWidth_widthOfField (f : BitVec 2) : fieldOfWidth (widthOfField f) = f := by
  revert f; decide

section FieldValues
variable (c : Word)

theorem toNat_opField : (opField c).toNat = c.toNat % 16 := by
  simp [opField]

theorem toNat_wField : (wField c).toNat = c.toNat / 16 % 4 := by
  simp [wField, Nat.shiftRight_eq_div_pow]

theorem toNat_accField : (accField c).toNat = c.toNat / 64 % 2 := by
  simp [accField, BitVec.getLsbD, Nat.toNat_testBit]

theorem toNat_rsvField : (rsvField c).toNat = c.toNat / 128 := by
  simp [rsvField, Nat.shiftRight_eq_div_pow]
  omega

end FieldValues

section PackWord
variable (op : BitVec 4) (f : BitVec 2) (acc : Bool)

theorem toNat_packWord : (packWord op f acc).toNat = acc.toNat * 64 + f.toNat * 16 + op.toNat := by
  have hf := f.isLt
  simp only [packWord, BitVec.toNat_append, ← Nat.shiftLeft_add_eq_or_of_lt (BitVec.isLt _)]
  simp [Nat.shiftLeft_eq]
  omega

@[simp] theorem opField_packWord : opField (packWord op f acc) = op := by
  have := op.isLt
  rw [← BitVec.toNat_inj, toNat_opField, toNat_packWord]
  omega

@[simp] theorem wField_packWord : wField (packWord op f acc) = f := by
  have := f.isLt
  rw [← BitVec.toNat_inj, toNat_wField, toNat_packWord]
  omega

@[simp] theorem accField_packWord : accField (packWord op f acc) = acc := by
  have := acc.toNat_le
  refine Function.LeftInverse.injective Bool.ofNat_toNat ?_
  rw [toNat_accField, toNat_packWord]
  omega

@[simp] theorem rsvField_packWord : rsvField (packWord op f acc) = 0#25 := by
  have := acc.toNat_le
  rw [← BitVec.toNat_inj, toNat_rsvField, toNat_packWord, BitVec.toNat_zero]
  omega

end PackWord

/-- A word whose reserved bits are 0 is its other three fields (30_encoding.md R81). -/
theorem packWord_fields {c : Word} (h : rsvField c = 0#25) : packWord (opField c) (wField c) (accField c) = c := by
  rw [← BitVec.toNat_inj, toNat_rsvField, BitVec.toNat_zero] at h
  rw [← BitVec.toNat_inj, toNat_packWord, toNat_opField, toNat_wField, toNat_accField]
  omega

/-! ### Decoding and encoding -/

theorem withoutAcc_eq_ok {c : Word} {i j : Instr} : withoutAcc c i = .ok j ↔ accField c = false ∧ i = j := by
  unfold withoutAcc
  cases accField c <;> simp

theorem decodeWord_encode (i : Instr) : decodeWord (encode i) = .ok i := by
  cases i <;> simp [encode, decodeWord, withoutAcc]

/-- A command without accumulate flag is read from its own word only. -/
theorem encode_of_withoutAcc {c : Word} {i j : Instr} (hrsv : rsvField c = 0#25) (h : withoutAcc c i = .ok j)
    (hi : encode i = packWord (opField c) (wField c) false) : encode j = c := by
  obtain ⟨hacc, rfl⟩ := withoutAcc_eq_ok.1 h
  rw [hi, ← hacc, packWord_fields hrsv]

/-- The decoder reads a command from its own word only, branch by branch of the decoder. -/
theorem encode_of_decodeWord {c : Word} {i : Instr} (h : decodeWord c = .ok i) : encode i = c := by
  unfold decodeWord at h
  split_ifs at h with hrsv hop hop hop hop hop hw hop
  · exact encode_of_withoutAcc hrsv h (by simp [encode, hop])
  · exact encode_of_withoutAcc hrsv h (by simp [encode, hop])
  · exact encode_of_withoutAcc hrsv h (by simp [encode, hop])
  · exact encode_of_withoutAcc hrsv h (by simp [encode, hop])
  · exact encode_of_withoutAcc hrsv h (by simp [encode, hop, hw])
  · cases h
    rw [encode, fieldOfWidth_widthOfField, ← hop, packWord_fields hrsv]

/-- Settles O1: the encoder writes every field the decoder reads, and the decoder drops no bit of a word. -/
theorem decodeAndEncodeAgree : Obligations.DecodeAndEncodeAgree :=
  fun _ i => ⟨encode_of_decodeWord, fun h => h ▸ decodeWord_encode i⟩

/-- Settles O4: each word is the word of its command. -/
theorem sampleWordsDecode : Obligations.SampleWordsDecode := by
  refine ⟨?_, ?_, ?_, ?_, ?_, ?_, ?_, ?_⟩ <;> exact (decodeAndEncodeAgree _ _).2 (by decide)

/-! ### The classes of words -/

/-- The illegal words of 30_encoding.md R86 by their fields. -/
theorem illegalWord_iff {c : Word} : IllegalWord c ↔
    (opField c).toNat = 0 ∨ 7 ≤ (opField c).toNat ∨ rsvField c ≠ 0#25 ∨ (accField c = true ∧ opField c ≠ 6#4) ∨
      (opField c = 5#4 ∧ wField c ≠ 0#2) := by
  simp only [IllegalWord, ← BitVec.toNat_inj, ne_eq, ← toNat_opField, ← toNat_wField, ← toNat_accField, ← toNat_rsvField]
  simp

theorem not_illegalWord_encode (i : Instr) : ¬ IllegalWord (encode i) := by
  cases i <;> simp [illegalWord_iff, encode]

/-- The operation codes of 30_encoding.md R83. -/
theorem op_cases {op : BitVec 4} (h0 : op.toNat ≠ 0) (h7 : op.toNat < 7) :
    op = 0x1#4 ∨ op = 0x2#4 ∨ op = 0x3#4 ∨ op = 0x4#4 ∨ op = 0x5#4 ∨ op = 0x6#4 := by
  revert op; decide

/-- A word that is not illegal is the word of a command, for each of the six operation codes. -/
theorem exists_encode_of_not_illegalWord {c : Word} (h : ¬ IllegalWord c) : ∃ i, encode i = c := by
  rw [illegalWord_iff] at h
  push Not at h
  obtain ⟨hop0, hop7, hrsv, hacc, hw⟩ := h
  have ofFields (i : Instr) (hi : encode i = packWord (opField c) (wField c) (accField c)) : ∃ i, encode i = c :=
    ⟨i, hi.trans (packWord_fields hrsv)⟩
  have hnoacc (hop : opField c ≠ 6#4) : accField c = false := by
    cases h : accField c
    · rfl
    · exact absurd (hacc h) hop
  rcases op_cases hop0 hop7 with hop | hop | hop | hop | hop | hop
  · exact ofFields (.initField (widthOfField (wField c))) (by simp [encode, hop, hnoacc])
  · exact ofFields (.multiply (widthOfField (wField c))) (by simp [encode, hop, hnoacc])
  · exact ofFields (.divide (widthOfField (wField c))) (by simp [encode, hop, hnoacc])
  · exact ofFields (.inverse (widthOfField (wField c))) (by simp [encode, hop, hnoacc])
  · exact ofFields .regionXor (by simp [encode, hop, hnoacc, hw])
  · exact ofFields (.regionMultiply (widthOfField (wField c)) (accField c)) (by simp [encode, hop])

/-- The decoder rejects the illegal words and no others. -/
theorem illegalWord_iff_decodeWord_error {c : Word} : IllegalWord c ↔ ∃ r, decodeWord c = .error r := by
  cases h : decodeWord c with
  | error r =>
    refine ⟨fun _ => ⟨r, rfl⟩, fun _ => by_contra fun hc => ?_⟩
    obtain ⟨i, rfl⟩ := exists_encode_of_not_illegalWord hc
    rw [decodeWord_encode] at h
    cases h
  | ok i =>
    rw [← encode_of_decodeWord h]
    simpa using not_illegalWord_encode i

/-- The width field of a well-formed command selects a width (30_encoding.md R82). -/
theorem wellFormed_iff_wField {i : Instr} : i.WellFormed ↔ wField (encode i) ≠ 3#2 := by
  have hsupported (w : WidthCode) : w.isSupported = true ↔ fieldOfWidth w ≠ 3#2 := by
    rcases w with (_ | _ | _) | _ <;> decide
  cases i <;> simp [Instr.WellFormed, Instr.isLegal, Instr.widthCode?, encode, hsupported]

/-- The list of 30_encoding.md R84 holds the words of the well-formed commands, that of R87 the words of the others. -/
theorem encode_mem_words (i : Instr) :
    (encode i ∈ legalWords ↔ i.WellFormed) ∧ (encode i ∈ unsupportedWords ↔ ¬ i.WellFormed) := by
  cases i with
  | initField w | multiply w | divide w | inverse w => rcases w with (_ | _ | _) | _ <;> decide
  | regionXor => decide
  | regionMultiply w acc => rcases w with (_ | _ | _) | _ <;> cases acc <;> decide

/-- No word of the two lists is illegal: each of the 25 decodes. -/
theorem not_illegalWord_of_mem {c : Word} (h : c ∈ legalWords ∨ c ∈ unsupportedWords) : ¬ IllegalWord c := by
  have hdecodes : ((legalWords ++ unsupportedWords).all fun c => (decodeWord c).isOk) = true := by decide
  have hc := List.all_eq_true.1 hdecodes c (List.mem_append.2 h)
  intro hillegal
  obtain ⟨r, hr⟩ := illegalWord_iff_decodeWord_error.1 hillegal
  rw [hr] at hc
  cases hc

/-! ### The errors a word raises by itself -/

/-- The width code `0b11` raises ConfigurationError, whatever the operands hold (60_exceptions.md R171). -/
theorem exec_of_not_wellFormed {i : Instr} (h : ¬ i.WellFormed) (s : State) :
    exec i s = .next (s.onlyErr .configurationError) := by
  cases i with
  | initField w | multiply w | divide w | inverse w | regionMultiply w acc =>
    cases w with
    | supported w => exact absurd rfl h
    | unsupported => rfl
  | regionXor => exact absurd rfl h

theorem runWord_of_decodeWord_ok {c : Word} {i : Instr} (h : decodeWord c = .ok i) (s : State) :
    runWord c s = exec i s := by
  rw [runWord, h]

theorem runWord_of_decodeWord_error {c : Word} {r : Reject} (h : decodeWord c = .error r) (s : State) :
    runWord c s = .next (s.onlyErr .illegalCommand) := by
  rw [runWord, h]; rfl

theorem runWord_encode (i : Instr) (s : State) : runWord (encode i) s = exec i s :=
  runWord_of_decodeWord_ok (decodeWord_encode i) s

/-- Settles O8: a command that carries the code is not well formed. -/
theorem unsupportedWidthRaisesConfigurationError : Obligations.UnsupportedWidthRaisesConfigurationError := by
  intro s acc
  refine ⟨?_, ?_, ?_, ?_, ?_⟩ <;> exact exec_of_not_wellFormed (by exact Bool.false_ne_true) s

/-- Settles O2: a word is illegal, or the word of a command, which is well formed or not. -/
theorem everyWordFallsInOneClass : Obligations.EveryWordFallsInOneClass := by
  intro c
  by_cases hc : IllegalWord c
  · obtain ⟨r, hr⟩ := illegalWord_iff_decodeWord_error.1 hc
    exact .inr (.inr ⟨fun h => not_illegalWord_of_mem (.inl h) hc, fun h => not_illegalWord_of_mem (.inr h) hc, ⟨r, hr⟩,
      runWord_of_decodeWord_error hr⟩)
  · obtain ⟨i, rfl⟩ := exists_encode_of_not_illegalWord hc
    obtain ⟨hlegal, hunsupported⟩ := encode_mem_words i
    by_cases hi : i.WellFormed
    · exact .inl ⟨hlegal.2 hi, fun h => hunsupported.1 h hi, i, decodeWord_encode i, hi⟩
    · exact .inr (.inl ⟨fun h => hi (hlegal.1 h), hunsupported.2 hi, ⟨i, decodeWord_encode i, hi⟩, fun s => by
        rw [runWord_encode, exec_of_not_wellFormed hi]⟩)

/-- Settles O3: the decoder rejects exactly the illegal words, and a command whose width field is `0b11` is not well formed. -/
theorem illegalWordsRaiseIllegalCommand : Obligations.IllegalWordsRaiseIllegalCommand := by
  intro c s
  refine ⟨fun hc => ?_, fun hc => ?_, fun hc hw => ?_, rfl⟩
  · obtain ⟨r, hr⟩ := illegalWord_iff_decodeWord_error.1 hc
    exact runWord_of_decodeWord_error hr s
  · obtain ⟨i, rfl⟩ := exists_encode_of_not_illegalWord hc
    exact ⟨i, decodeWord_encode i, runWord_encode i s⟩
  · obtain ⟨i, rfl⟩ := exists_encode_of_not_illegalWord hc
    rw [← toNat_wField] at hw
    have hi : ¬ i.WellFormed := fun hi => wellFormed_iff_wField.1 hi (BitVec.eq_of_toNat_eq hw)
    rw [runWord_encode, exec_of_not_wellFormed hi]

end Sys2Proof.Machine
end

section
/-! PROOFS. The host's own actions in a row (30_encoding.md R88, R89): bytes stored and loaded again, and the source's call
`multiply(a, b)`. -/

namespace Sys2Proof.Machine

/-! ### A store and a load -/

theorem readBytes_eq {m : Memory} {addr : Nat} {bs : List Byte} (h : ∀ i (hi : i < bs.length), m.read (addr + i) = bs[i]) :
    m.readBytes addr bs.length = bs := by
  refine List.ext_getElem (by simp [Memory.readBytes]) fun i _ hi => ?_
  simpa [Memory.readBytes] using h i hi

/-- A store that is done. -/
theorem step_store_next {s t : State} {addr : Nat} {bs : List Byte} {rest : List HostAction}
    (hhost : s.host = .st addr bs :: rest) (h : step s = .next t) :
    t = { s with host := rest, mem := s.mem.writeBytes addr bs } := by
  rw [step_of_unheld hhost rfl] at h
  obtain ⟨-, -, ht⟩ := hostAccess_next h
  exact ht

/-- A load that is done. -/
theorem step_load_next {s t : State} {addr n : Nat} {rest : List HostAction} (hhost : s.host = .ld addr n :: rest)
    (h : step s = .next t) : t = { s with host := rest, seen := .bytes (s.mem.readBytes addr n) :: s.seen } := by
  rw [step_of_unheld hhost rfl] at h
  obtain ⟨-, -, ht⟩ := hostAccess_next h
  exact ht

/-- Settles O50, by what a store leaves in memory. -/
theorem hostLoadsWhatItStored : Obligations.HostLoadsWhatItStored := by
  intro s t u addr bs rest hmem hhost hstore hload
  obtain rfl := step_store_next hhost hstore
  obtain rfl := step_load_next rfl hload
  obtain ⟨hinside, houtside⟩ := read_writeBytes hmem addr bs
  refine ⟨?_, rfl, rfl, rfl, rfl, fun x hx => houtside x ?_⟩
  · simp only [readBytes_eq hinside]
  · simp only [Range.contains] at hx
    omega

/-! ### The product of a call -/

theorem gfMul_eq_pmul (w : Width) (ts : TableSet) (a b : Elem w) : gfMul w ts a b = pmul ts.poly a b := by
  unfold gfMul
  split
  · next h => rcases h with rfl | rfl <;> simp
  · rfl

theorem fits_iff {w : Width} {v : Word} : fits w v = true ↔ v.toNat < 2 ^ w.bits := decide_eq_true_iff

/-- `multiply.w` with operands that fit and a width that builds delivers the product (41_element_arithmetic.md R121, R125). -/
theorem execMultiply_of_fits {s : State} (hs : s.Wf) {w : Width} (hbuild : buildOk w (s.cfg.poly w) (s.cfg.gen w) = true)
    (ha : s.port.ea.toNat < 2 ^ w.bits) (hb : s.port.eb.toNat < 2 ^ w.bits) : execMultiply (.supported w) s =
      .next (s.delivered w (pmul (s.cfg.poly w) (elem w s.port.ea) (elem w s.port.eb))) := by
  rw [execMultiply_supported, fits_iff.2 ha, fits_iff.2 hb, afterBuild_of_wf hs, hbuild, gfMul_eq_pmul]
  rfl

theorem bits_le (w : Width) : w.bits ≤ 32 := by cases w <;> decide

theorem lt_two_pow_32 {w : Width} {v : Nat} (hv : v < 2 ^ w.bits) : v < 2 ^ 32 :=
  hv.trans_le (Nat.pow_le_pow_right (by decide) (bits_le w))

theorem elem_ofNat {w : Width} {v : Nat} (hv : v < 2 ^ w.bits) : elem w (BitVec.ofNat 32 v) = BitVec.ofNat w.bits v := by
  rw [← BitVec.toNat_inj, elem, BitVec.toNat_setWidth, BitVec.toNat_ofNat, BitVec.toNat_ofNat,
    Nat.mod_eq_of_lt (lt_two_pow_32 hv)]

/-- What the host reads from `ER` is the element, zero-extended (10_state.md R21, R24). -/
theorem setWidth_result {w : Width} (r : Elem w) : (r.setWidth 32).setWidth 64 = r.setWidth 64 :=
  BitVec.setWidth_setWidth (by have := bits_le w; omega)

/-- After a command that raised no error `STATUS.ERR` reads 0 (10_state.md R28). -/
theorem status_err_none (s : State) : ((s.statusWord .none).setWidth 64).extractLsb' 0 3 = 0#3 := by
  obtain ⟨herr, -⟩ := statusLayout s .none
  rw [BitVec.extractLsb'_setWidth_of_le (by decide), herr]
  rfl

/-! ### A call as its steps -/

/-- Steps in a row, after the first `m` of them. -/
theorem runSteps_add {m : Nat} {s t : State} (h : runSteps m s = .next t) (n : Nat) :
    runSteps (m + n) s = runSteps n t := by
  induction m generalizing s with
  | zero => cases h; rw [Nat.zero_add]
  | succ m ih =>
    rw [runSteps] at h
    rw [Nat.succ_add, runSteps]
    cases hstep : step s with
    | next u => rw [hstep] at h; exact ih h
    | fault r => rw [hstep] at h; cases h
    | refused r => rw [hstep] at h; cases h

theorem runSteps_one {s t : State} (h : step s = .next t) : runSteps 1 s = .next t := by
  rw [runSteps, h]; rfl

/-- The registers of a port once the host has written the operands of an element command to it. -/
def Port.withElements (a b : Nat) (q : Port) : Port := { q with ea := BitVec.ofNat 32 a, eb := BitVec.ofNat 32 b }

section Idle
variable {s : State} {p : Nat} {rest : List HostAction} (hidle : s.inFlight = []) (hp : p < s.ports.length)
include hidle hp

theorem step_write_operand {n v : Nat} (hhost : s.host = .wr p n v :: rest) (hn : 1 ≤ n) (hn4 : n ≤ 4) (hv : v < 2 ^ 32) :
    step s = .next { s.modifyPortAt p (writeOperand n v) with host := rest } := by
  rw [step_of_idle hhost rfl (by simp [hidle])]
  refine (hostWrite_operand (s := { s with host := rest }) hp hn (by omega) (by simpa [hn4] using hv)).trans ?_
  rw [← modify_eq_set_portAt (s := { s with host := rest }) hp]
  rfl

theorem runSteps_write_elements {a b : Nat} (hhost : s.host = .wr p 2 a :: .wr p 3 b :: rest) (ha : a < 2 ^ 32)
    (hb : b < 2 ^ 32) : runSteps 2 s = .next { s.modifyPortAt p (Port.withElements a b) with host := rest } := by
  have hfirst := step_write_operand hidle hp hhost (by decide) (by decide) ha
  have hsecond := step_write_operand (s := { s.modifyPortAt p (writeOperand 2 a) with host := .wr p 3 b :: rest }) hidle
    ((List.length_modify ..).symm ▸ hp) rfl (by decide) (by decide) hb
  rw [runSteps_add (runSteps_one hfirst) 1, runSteps_one hsecond]
  simp only [State.modifyPortAt, List.modify_modify_eq]
  rfl

theorem step_read {n : Nat} {v : BitVec 64} (hhost : s.host = .rd p n :: rest) (hv : readRegister s p n = some v) :
    step s = .next { s with host := rest, seen := .register v :: s.seen } := by
  rw [step_of_idle hhost rfl (by simp [hidle])]
  exact hostRead_of_register (s := { s with host := rest }) hp hv

/-- The host reads `STATUS` and then `ER`. -/
theorem runSteps_read_result (hhost : s.host = .rd p 1 :: .rd p 4 :: rest) : runSteps 2 s = .next { s with
    host := rest
    seen := .register ((s.portAt p).er.setWidth 64) ::
      .register ((s.statusWord (s.portAt p).err).setWidth 64) :: s.seen } := by
  rw [runSteps_add (runSteps_one (step_read hidle hp hhost rfl)) 1]
  refine runSteps_one (step_read ?_ ?_ rfl rfl)
  · exact hidle
  · exact hp

/-- The host writes the command word of `i` to `CMD`. -/
theorem step_issue {i : Instr} (hhost : s.host = issue p i :: rest) :
    step s = exec i { s with host := rest, cur := p } :=
  (stepRunsTheCommandWritten s p (encode i) rest hhost hp (by simp [hidle]) (by simp [hidle])).1 i (decodeWord_encode i)

end Idle

/-- The machine that runs a command on port `p`, its operands written. -/
def State.called (s : State) (p a b : Nat) (rest : List HostAction) : State :=
  { s.modifyPortAt p (Port.withElements a b) with host := rest, cur := p }

section Called
variable {s : State} {p a b : Nat} {rest : List HostAction} {w : Width} (hs : s.Wf) (hp : p < s.ports.length)

include hp in
theorem called_cur_lt : p < (s.called p a b rest).ports.length := (List.length_modify ..).symm ▸ hp

include hp in
theorem called_port : (s.called p a b rest).port = Port.withElements a b (s.portAt p) := portAt_modify_same hp _

include hs hp

theorem called_wf : (s.called p a b rest).Wf :=
  wf_cur (s := { s.modifyPortAt p (Port.withElements a b) with host := rest })
    { wf_modifyPortAt hs p (f := Port.withElements a b) fun _ hq => hq with } (called_cur_lt hp (rest := rest))

/-- `multiply.w` on operands that fit delivers their product. -/
theorem exec_multiply_called (hbuild : buildOk w (s.cfg.poly w) (s.cfg.gen w) = true) (ha : a < 2 ^ w.bits)
    (hb : b < 2 ^ w.bits) : exec (.multiply (.supported w)) (s.called p a b rest) = .next ((s.called p a b rest).delivered w
      (pmul (s.cfg.poly w) (BitVec.ofNat w.bits a) (BitVec.ofNat w.bits b))) := by
  have hfits {v : Nat} (hv : v < 2 ^ w.bits) : (BitVec.ofNat 32 v).toNat < 2 ^ w.bits := (Nat.mod_le ..).trans_lt hv
  have hexec := execMultiply_of_fits (called_wf hs hp (a := a) (b := b) (rest := rest)) (w := w) hbuild
  rw [called_port hp] at hexec
  rw [← elem_ofNat ha, ← elem_ofNat hb]
  exact hexec (hfits ha) (hfits hb)

end Called

/-- A call with two operands whose command `i` delivers `r`: the host writes the operands and the command, and `r` and no error
stand in the registers. -/
theorem runSteps_call {s : State} {p a b : Nat} {rest : List HostAction} {i : Instr} {w : Width} {r : Elem w}
    (hidle : s.inFlight = []) (hp : p < s.ports.length) (hhost : s.host = .wr p 2 a :: .wr p 3 b :: issue p i :: rest)
    (ha : a < 2 ^ 32) (hb : b < 2 ^ 32)
    (hexec : exec i (s.called p a b rest) = .next ((s.called p a b rest).delivered w r)) :
    ∃ t, runSteps 3 s = .next t ∧ t.inFlight = [] ∧ p < t.ports.length ∧ t.host = rest ∧ t.mem = s.mem ∧ t.seen = s.seen ∧
      (t.portAt p).err = .none ∧ (t.portAt p).er = r.setWidth 32 := by
  have hcur : p < (s.called p a b rest).ports.length := called_cur_lt hp
  have hport := portAt_modify_same hcur fun q => { q with er := r.setWidth 32, err := .none }
  refine ⟨(s.called p a b rest).delivered w r, ?_, hidle, (List.length_modify ..).symm ▸ hcur, rfl, rfl, rfl,
    congrArg Port.err hport, congrArg Port.er hport⟩
  rw [runSteps_add (runSteps_write_elements hidle hp hhost ha hb) 1]
  refine runSteps_one ((step_issue ?_ ?_ rfl).trans hexec)
  · exact hidle
  · exact hcur

/-- Settles O51: three steps write the operands and run the command, two read `STATUS` and the product. -/
theorem multiplyCallReturnsTheProduct : Obligations.MultiplyCallReturnsTheProduct := by
  intro s p a b w rest hs hidle hp hbuild ha hb hhost
  rw [← hs.ports] at hp
  obtain ⟨t, hrun, htidle, htp, hthost, hmem, hseen, herr, her⟩ := runSteps_call hidle hp hhost (lt_two_pow_32 ha)
    (lt_two_pow_32 hb) (exec_multiply_called hs hp hbuild ha hb)
  refine ⟨_, (t.statusWord (t.portAt p).err).setWidth 64,
    (runSteps_add hrun 2).trans (runSteps_read_result htidle htp hthost), rfl, hmem, ?_, ?_⟩
  · simp only [hseen, her, setWidth_result]
  · rw [herr]
    exact status_err_none t

end Sys2Proof.Machine
end

section
/-! PROOFS. The tables of a width (40_field_tables.md R102 to R110): what `init_field` and a failing build do, the equivalence of
the order test, of validity and of the walk, and what the tables of a built width hold. -/

namespace Sys2Proof.Machine

/-! ### Step 5 of a command -/

/-- A command that reaches the build of a width that does not build raises ConfigurationError (40_field_tables.md R106). -/
theorem afterBuild_of_failed {s : State} {w : Width} (hbuilt : s.built w = false)
    (hfails : buildOk w (s.cfg.poly w) (s.cfg.gen w) = false) (k : TableSet → State → Out) :
    s.afterBuild w k = .next (s.onlyErr .configurationError) := by
  have hnone : s.tables.get w = none := by simpa [State.built] using hbuilt
  rw [State.afterBuild, getTables_eq_none.2 ⟨hnone, hfails⟩]

/-- Settles O9: step 5 of a well-formed state leaves the tables of the parameters. -/
theorem initFieldBuildsTheTables : Obligations.InitFieldBuildsTheTables := by
  intro s w hs hbuild
  rw [exec, execInitField_supported, afterBuild_of_wf hs, hbuild]
  rfl

/-- Settles O10: each command, its earlier checks passed, is its step 5. -/
theorem failedBuildRaisesConfigurationError : Obligations.FailedBuildRaisesConfigurationError := by
  intro s w acc hbuilt hfails
  have hstep := afterBuild_of_failed hbuilt hfails
  refine ⟨?_, fun ha => ⟨fun hb => ⟨?_, fun hb0 => ?_⟩, fun ha0 => ?_, fun hlen => ?_⟩⟩
  · rw [exec, execInitField_supported, hstep]
  · simp [exec, execMultiply_supported, fits_iff.2 ha, fits_iff.2 hb, hstep]
  · simp [exec, execDivide_supported, fits_iff.2 ha, fits_iff.2 hb, hb0, hstep]
  · simp [exec, execInverse_supported, fits_iff.2 ha, ha0, hstep]
  · simp [exec, execRegionMultiply_supported, fits_iff.2 ha, wholeElements, hlen, hstep]

/-! ### Valid pairs -/

/-- Settles O13: the machine's test is the order test (R109), and it accepts exactly the valid pairs. -/
theorem orderTestIsValidity : Obligations.OrderTestIsValidity := by
  refine ⟨⟨rfl, rfl, rfl⟩, fun q hq => prime_of_mem_primesOfOrder (w := .w32) hq, fun w poly gen htop hdeg hgen => ?_⟩
  rw [← buildSucceedsExactlyWhenValid, buildOk_iff, paramsInRange_iff]
  exact and_iff_right ⟨htop, hdeg, hgen⟩

section ValidPair
variable {w : Width} {poly gen : Nat} (h : ValidPair w poly gen)
include h

/-- Every nonzero element is a power of a valid generator (R108). -/
theorem ValidPair.exists_ppow_eq {a : Elem w} (ha : a ≠ 0#w.bits) :
    ∃ i, i < w.order ∧ ppow poly (BitVec.ofNat w.bits gen) i = a := by
  obtain ⟨-, -, -, hne, hlt⟩ := h
  exact Machine.exists_ppow_eq hne hlt ha

theorem ValidPair.ppow_order : ppow poly (BitVec.ofNat w.bits gen) w.order = 1#w.bits := by
  obtain ⟨-, hone, -⟩ := buildOk_iff.1 ((buildSucceedsExactlyWhenValid w poly gen).2 h)
  exact hone

/-- Every nonzero element has an inverse: that of `g^i` is `g^(N_w - i)`. -/
theorem ValidPair.exists_pmul_eq_one {a : Elem w} (ha : a ≠ 0#w.bits) : ∃ r, pmul poly a r = 1#w.bits := by
  obtain ⟨i, hi, rfl⟩ := h.exists_ppow_eq ha
  refine ⟨ppow poly (BitVec.ofNat w.bits gen) (w.order - i), ?_⟩
  rw [← ppow_add, Nat.add_sub_cancel' hi.le, h.ppow_order]

end ValidPair

/-- Settles O17: the ring laws hold for every polynomial, and a pair that builds is valid. -/
theorem buildYieldsAField : Obligations.BuildYieldsAField := by
  intro w poly gen hbuild
  have h : ValidPair w poly gen := (buildSucceedsExactlyWhenValid w poly gen).1 hbuild
  exact ⟨h.ppow_order, fun a => h.exists_ppow_eq, pmul_comm poly, fun a b c => (pmul_assoc poly a b c).symm,
    pmul_xor_right poly, pmul_one poly, fun a => h.exists_pmul_eq_one⟩

/-! ### The walk -/

section Walk
variable (p : Nat) {n : Nat} (g : BitVec n)

/-- The walk of R102 can write the power `i` of the generator: it is not 0 and differs from all the powers before it. -/
def FreshPower (i : Nat) : Prop := ppow p g i ≠ 0#n ∧ ∀ k, k < i → ppow p g k ≠ ppow p g i

/-- The first `i` powers, the last one first: what the walk has written when it comes to the power `i`. -/
def powersDown (i : Nat) : List (BitVec n) := ((List.range i).map (ppow p g)).reverse

theorem powersDown_succ (i : Nat) : powersDown p g (i + 1) = ppow p g i :: powersDown p g i := by
  simp [powersDown, List.range_succ]

theorem freshPower_iff (i : Nat) : FreshPower p g i ↔ ¬ (ppow p g i = 0#n ∨ ppow p g i ∈ powersDown p g i) := by
  simp [FreshPower, powersDown]

theorem buildWalkFrom_eq_some_iff (count i : Nat) (table : List (BitVec n)) :
    buildWalkFrom p g count (ppow p g i) (powersDown p g i) = some table ↔
      (∀ j, i ≤ j → j < i + count → FreshPower p g j) ∧ table = (List.range (i + count)).map (ppow p g) := by
  induction count generalizing i with
  | zero =>
    have hvacuous : ∀ j, i ≤ j → j < i + 0 → FreshPower p g j := fun j hij hji => by omega
    simp only [buildWalkFrom, powersDown, List.reverse_reverse, Option.some.injEq, Nat.add_zero, eq_comm (a := table)]
    exact (and_iff_right hvacuous).symm
  | succ k ih =>
    rw [buildWalkFrom]
    split
    · next hstop =>
      have hstale : ¬ FreshPower p g i := fun hfresh => (freshPower_iff p g i).1 hfresh hstop
      exact iff_of_false nofun fun ⟨hall, _⟩ => hstale (hall i le_rfl (by omega))
    · next hgo =>
      have hfresh : FreshPower p g i := (freshPower_iff p g i).2 hgo
      rw [← powersDown_succ, ← ppow_succ, ih, show i + 1 + k = i + (k + 1) by omega]
      refine and_congr_left' ⟨fun hall j hij hj => ?_, fun hall j hij hj => hall j (by omega) hj⟩
      obtain rfl | hij := hij.eq_or_lt
      · exact hfresh
      · exact hall j hij hj

end Walk

/-- A pair is valid when it is in range and the walk can write every power. -/
theorem validPair_iff_freshPower {w : Width} {poly gen : Nat} : ValidPair w poly gen ↔
    paramsInRange w poly gen = true ∧ ∀ i, i < w.order → FreshPower poly (BitVec.ofNat w.bits gen) i := by
  rw [paramsInRange_iff]
  constructor
  · rintro ⟨htop, hdeg, hgen, hne, hlt⟩
    exact ⟨⟨htop, hdeg, hgen⟩, fun i hi => ⟨hne i hi, fun k hk => hlt k i hk hi⟩⟩
  · rintro ⟨⟨htop, hdeg, hgen⟩, hfresh⟩
    exact ⟨htop, hdeg, hgen, fun i hi => (hfresh i hi).1, fun i j hij hj => (hfresh j hj).2 i hij⟩

/-- Settles O14: the walk from the power 0 succeeds when every power is fresh, and has then written the powers. -/
theorem walkFillsTheAntilogTable : Obligations.WalkFillsTheAntilogTable := by
  intro w poly gen table
  have hwalk := buildWalkFrom_eq_some_iff poly (BitVec.ofNat w.bits gen) w.order 0 table
  rw [Nat.zero_add, ppow_zero] at hwalk
  rw [validPair_iff_freshPower, buildWalk]
  split
  · next hrange =>
    exact hwalk.trans (and_congr_left' (by simp [hrange]))
  · next hrange => exact iff_of_false nofun fun ⟨⟨hr, _⟩, _⟩ => hrange hr

/-! ### The entries of the tables -/

/-- The search finds the first power from `i` on that is `a`. -/
theorem logFrom_ppow {p n : Nat} {g a : BitVec n} {count i k : Nat} (hik : i ≤ k) (hk : k < i + count) (ha : ppow p g k = a)
    (hfirst : ∀ j, j < k → ppow p g j ≠ a) : logFrom p g a count i (ppow p g i) = k := by
  induction count generalizing i with
  | zero => omega
  | succ c ih =>
    rw [logFrom]
    obtain rfl | hlt := hik.eq_or_lt
    · exact if_pos ha
    · rw [if_neg (hfirst i hlt), ← ppow_succ]
      exact ih hlt (by omega)

section Entries
variable {w : Width} {ts : TableSet} (h : ValidPair w ts.poly ts.gen)
include h

theorem log_antilog {i : Nat} (hi : i < w.order) : ts.log w (ts.antilog w i) = i := by
  obtain ⟨-, hfresh⟩ := validPair_iff_freshPower.1 h
  obtain ⟨hne, hfirst⟩ := hfresh i hi
  rw [TableSet.log, TableSet.antilog, if_neg hne, ← ppow_zero ts.poly (BitVec.ofNat w.bits ts.gen)]
  exact logFrom_ppow (Nat.zero_le i) (by omega) rfl hfirst

theorem log_lt_and_antilog_log {a : Elem w} (ha : a ≠ 0#w.bits) : ts.log w a < w.order ∧ ts.antilog w (ts.log w a) = a := by
  obtain ⟨i, hi, rfl⟩ := h.exists_ppow_eq ha
  have hlog : ts.log w (ppow ts.poly (BitVec.ofNat w.bits ts.gen) i) = i := log_antilog h hi
  rw [hlog]
  exact ⟨hi, rfl⟩

end Entries

/-- Settles O15: a built width holds the tables of a valid pair, in which the logarithm of a power below `N_w` is its exponent
and every nonzero element is such a power. -/
theorem builtTablesAreInverse : Obligations.BuiltTablesAreInverse := by
  intro s w ts hs hts
  obtain ⟨rfl, hbuild⟩ := hs.tables w ts hts
  have h : ValidPair w (s.cfg.poly w) (s.cfg.gen w) := (buildSucceedsExactlyWhenValid w _ _).1 hbuild
  have hlog {i : Nat} (hi : i < w.order) := log_antilog (ts := s.fieldOf w) h hi
  have horder := two_lt_order w
  have hzero : (s.fieldOf w).antilog w 0 = 1#w.bits := ppow_zero _ _
  have hone : (s.fieldOf w).antilog w 1 = BitVec.ofNat w.bits (s.cfg.gen w) := ppow_one _ _
  refine ⟨fun i _ => rfl, fun a ha => ?_, fun i => hlog, if_pos rfl, hzero, ?_, hone, ?_⟩
  · obtain ⟨hlt, hinv⟩ := log_lt_and_antilog_log (ts := s.fieldOf w) h ha
    exact ⟨hlt, hinv, fun i hi hia => hia ▸ (hlog hi).symm⟩
  · rw [← hzero]
    exact hlog (by omega)
  · rw [← hone]
    exact hlog (by omega)

end Sys2Proof.Machine
end

section
/-! PROOFS. Element arithmetic (41_element_arithmetic.md): the field laws of a valid pair, the table formulas as the product,
the quotient and the inverse, and what `multiply`, `divide` and `inverse` deliver. -/

namespace Sys2Proof.Machine

/-! ### The machine's inverse and quotient -/

theorem antilog_add (ts : TableSet) (w : Width) (i j : Nat) :
    ts.antilog w (i + j) = pmul ts.poly (ts.antilog w i) (ts.antilog w j) := ppow_add ..

theorem gfInv_eq_ppow (w : Width) (ts : TableSet) (a : Elem w) : gfInv w ts a = ppow ts.poly a (w.order - 1) :=
  fpow_eq_ppow _ _ ((Nat.sub_le ..).trans_lt (order_lt w))

theorem gfDiv_eq_pmul (w : Width) (ts : TableSet) (a b : Elem w) : gfDiv w ts a b = pmul ts.poly a (gfInv w ts b) := by
  unfold gfDiv
  split
  · next ha => rw [ha, zero_pmul]
  · rfl

theorem elem_one_ne_zero (w : Width) : (1#w.bits : Elem w) ≠ 0#w.bits := by cases w <;> decide

/-! ### Inverses in the field of a valid pair -/

section Field
variable {w : Width} {ts : TableSet} (h : ValidPair w ts.poly ts.gen)
include h

/-- A power of a valid generator depends on its exponent modulo `N_w` only (R124). -/
theorem antilog_mod (i : Nat) : ts.antilog w (i % w.order) = ts.antilog w i :=
  letI := Residue.commMonoid ts.poly w.bits
  (pow_eq_pow_mod (M := Residue ts.poly w.bits) i h.ppow_order).symm

/-- A whole turn of the cycle changes no element. -/
theorem antilog_add_order (i : Nat) : ts.antilog w (i + w.order) = ts.antilog w i := by
  rw [← antilog_mod h, Nat.add_mod_right, antilog_mod h]

/-- The order of every nonzero element divides `N_w`: it is a power of the generator. -/
theorem ValidPair.ppow_order_of_ne_zero {a : Elem w} (ha : a ≠ 0#w.bits) : ppow ts.poly a w.order = 1#w.bits := by
  obtain ⟨i, -, rfl⟩ := h.exists_ppow_eq ha
  rw [← ppow_mul]
  calc ts.antilog w (i * w.order)
    _ = ts.antilog w (i * w.order % w.order) := (antilog_mod h _).symm
    _ = 1#w.bits := by rw [Nat.mul_mod_left]; exact ppow_zero ..

theorem ValidPair.pmul_gfInv {a : Elem w} (ha : a ≠ 0#w.bits) : pmul ts.poly a (gfInv w ts a) = 1#w.bits := by
  have horder : w.order - 1 + 1 = w.order := Nat.sub_add_cancel (by have := two_lt_order w; omega)
  rw [gfInv_eq_ppow, pmul_comm, ← ppow_succ, horder, h.ppow_order_of_ne_zero ha]

/-- Dividing by a nonzero element undoes multiplying by it, and it alone does. -/
theorem ValidPair.pmul_eq_iff {a b r : Elem w} (hb : b ≠ 0#w.bits) : pmul ts.poly r b = a ↔ r = gfDiv w ts a b := by
  rw [gfDiv_eq_pmul]
  constructor
  · rintro rfl
    rw [pmul_assoc, h.pmul_gfInv hb, pmul_one]
  · rintro rfl
    rw [pmul_assoc, pmul_comm _ _ b, h.pmul_gfInv hb, pmul_one]

theorem ValidPair.pmul_eq_one_iff {a r : Elem w} (ha : a ≠ 0#w.bits) :
    pmul ts.poly a r = 1#w.bits ↔ r = gfInv w ts a := by
  rw [pmul_comm, h.pmul_eq_iff ha, gfDiv_eq_pmul, one_pmul]

theorem ValidPair.eq_zero_of_pmul_eq_zero {a b : Elem w} (hab : pmul ts.poly a b = 0#w.bits) (hb : b ≠ 0#w.bits) :
    a = 0#w.bits := by
  rw [(h.pmul_eq_iff hb).1 hab, gfDiv_eq_pmul, zero_pmul]

theorem ValidPair.gfInv_ne_zero {a : Elem w} (ha : a ≠ 0#w.bits) : gfInv w ts a ≠ 0#w.bits := by
  intro hzero
  have hone := h.pmul_gfInv ha
  rw [hzero, pmul_zero] at hone
  exact elem_one_ne_zero w hone.symm

theorem ValidPair.gfInv_gfInv {a : Elem w} (ha : a ≠ 0#w.bits) : gfInv w ts (gfInv w ts a) = a :=
  ((h.pmul_eq_one_iff (h.gfInv_ne_zero ha)).1 (by rw [pmul_comm, h.pmul_gfInv ha])).symm

/-- Multiplying by a nonzero constant is undone by multiplying by its inverse. -/
theorem ValidPair.pmul_bijective {c : Elem w} (hc : c ≠ 0#w.bits) : Function.Bijective (pmul ts.poly c) := by
  refine Function.bijective_iff_has_inverse.2 ⟨pmul ts.poly (gfInv w ts c), fun a => ?_, fun a => ?_⟩
  · rw [← pmul_assoc, pmul_comm _ _ c, h.pmul_gfInv hc, one_pmul]
  · rw [← pmul_assoc, h.pmul_gfInv hc, one_pmul]

/-! ### The table formulas -/

theorem tableMul_eq_pmul (a b : Elem w) : tableMul w ts a b = pmul ts.poly a b := by
  unfold tableMul
  split
  · next hzero => rcases hzero with rfl | rfl <;> simp
  · next hne =>
    obtain ⟨ha, hb⟩ := not_or.1 hne
    obtain ⟨-, hla⟩ := log_lt_and_antilog_log h ha
    obtain ⟨-, hlb⟩ := log_lt_and_antilog_log h hb
    rw [antilog_mod h, antilog_add, hla, hlb]

/-- The quotient formula, multiplied by `b`, has the exponent of `a` after a whole turn. -/
theorem tableDiv_eq_gfDiv (a : Elem w) {b : Elem w} (hb : b ≠ 0#w.bits) : tableDiv w ts a b = gfDiv w ts a b := by
  rw [← h.pmul_eq_iff hb, tableDiv]
  split
  · next ha => rw [ha, zero_pmul]
  · next ha =>
    obtain ⟨-, hla⟩ := log_lt_and_antilog_log h ha
    obtain ⟨hlt, hlb⟩ := log_lt_and_antilog_log h hb
    have hturn : ts.log w a + w.order - ts.log w b + ts.log w b = ts.log w a + w.order := by omega
    calc pmul ts.poly (ts.antilog w ((ts.log w a + w.order - ts.log w b) % w.order)) b
      _ = ts.antilog w (ts.log w a + w.order - ts.log w b + ts.log w b) := by rw [antilog_mod h, antilog_add, hlb]
      _ = a := by rw [hturn, antilog_add_order h, hla]

/-- The inverse formula, multiplied by `a`, has the exponent `N_w`. -/
theorem tableInv_eq_gfInv {a : Elem w} (ha : a ≠ 0#w.bits) : tableInv w ts a = gfInv w ts a := by
  obtain ⟨hlt, hla⟩ := log_lt_and_antilog_log h ha
  rw [← h.pmul_eq_one_iff ha, tableInv]
  calc pmul ts.poly a (ts.antilog w ((w.order - ts.log w a) % w.order))
    _ = ts.antilog w (ts.log w a + (w.order - ts.log w a)) := by rw [antilog_mod h, antilog_add, hla]
    _ = 1#w.bits := by rw [Nat.add_sub_cancel' hlt.le]; exact h.ppow_order

end Field

/-- Settles O21: each formula is the machine's operation, which is the one solution of its equation. -/
theorem tableFormulasComputeTheProduct : Obligations.TableFormulasComputeTheProduct := by
  intro s w ts hs hts
  obtain ⟨rfl, hbuild⟩ := hs.tables w ts hts
  have h : ValidPair w (s.fieldOf w).poly (s.fieldOf w).gen := (buildSucceedsExactlyWhenValid w _ _).1 hbuild
  refine ⟨tableMul_eq_pmul h, fun a b hb => ?_, fun a ha => ?_⟩
  · have hdiv : tableDiv w (s.fieldOf w) a b = gfDiv w (s.fieldOf w) a b := tableDiv_eq_gfDiv h a hb
    exact ⟨(h.pmul_eq_iff hb).2 hdiv, fun r hr => ((h.pmul_eq_iff hb).1 hr).trans hdiv.symm⟩
  · have hinv : tableInv w (s.fieldOf w) a = gfInv w (s.fieldOf w) a := tableInv_eq_gfInv h ha
    exact ⟨(h.pmul_eq_one_iff ha).2 hinv, fun r hr => ((h.pmul_eq_one_iff ha).1 hr).trans hinv.symm⟩

/-- Settles O22: the ring laws hold for every polynomial, and a nonzero element of a field has an inverse. -/
theorem fieldLawsHold : Obligations.FieldLawsHold := by
  intro w ts hbuild
  have h : ValidPair w ts.poly ts.gen := (buildSucceedsExactlyWhenValid w _ _).1 hbuild
  simp only [gfMul_eq_pmul]
  exact ⟨pmul_comm _, fun a b c => (pmul_assoc _ a b c).symm, fun a => h.pmul_gfInv,
    fun a => ⟨pmul_zero _ a, pmul_one _ a⟩, fun a b hb => (h.pmul_eq_iff hb).2 rfl⟩

/-- Settles O23: the product is additive in each factor, and the rest follows from the inverses. -/
theorem furtherFieldLawsHold : Obligations.FurtherFieldLawsHold := by
  intro w ts hbuild
  have h : ValidPair w ts.poly ts.gen := (buildSucceedsExactlyWhenValid w _ _).1 hbuild
  have hmul (c : Elem w) : gfMul w ts c = pmul ts.poly c := funext (gfMul_eq_pmul w ts c)
  simp only [hmul]
  exact ⟨pmul_xor_right _, fun a b hab => or_iff_not_imp_right.2 (h.eq_zero_of_pmul_eq_zero hab),
    fun a b _ => gfDiv_eq_pmul w ts a b, fun a => h.gfInv_gfInv, fun c => h.pmul_bijective⟩

/-! ### What the element commands deliver -/

theorem fits_eq_false_iff {w : Width} {v : Word} : fits w v = false ↔ 2 ^ w.bits ≤ v.toNat := by
  rw [← Bool.not_eq_true, fits_iff, Nat.not_lt]

/-- Two operands of which one does not fit do not pass the check of step 3 (60_exceptions.md R175). -/
theorem fits_and_fits_eq_false {w : Width} {a b : Word} (h : 2 ^ w.bits ≤ a.toNat ∨ 2 ^ w.bits ≤ b.toNat) :
    (fits w a && fits w b) = false := by
  simpa only [Bool.and_eq_false_iff, fits_eq_false_iff] using h

/-- An operand that fits and is not 0 is a nonzero element. -/
theorem setWidth_ne_zero_of_fits {w : Width} {v : Word} (hv : v.toNat < 2 ^ w.bits) (hne : v ≠ 0#32) :
    (v.setWidth w.bits : Elem w) ≠ 0#w.bits := by
  intro hzero
  rw [← BitVec.toNat_inj, BitVec.toNat_setWidth, Nat.mod_eq_of_lt hv] at hzero
  exact hne (BitVec.eq_of_toNat_eq (hzero.trans (by simp)))

/-- An element command past its checks, on a well-formed state: ConfigurationError when the width does not build, and else the
result `r` that the command's formula gives in a valid field. -/
theorem afterBuild_deliver_of_wf {s : State} (hs : s.Wf) {w : Width} {f : TableSet → Elem w} {r : Elem w}
    (hr : ValidPair w (s.fieldOf w).poly (s.fieldOf w).gen → f (s.fieldOf w) = r) :
    (buildOk w (s.cfg.poly w) (s.cfg.gen w) = false →
      s.afterBuild w (fun ts t => .next (t.deliver (f ts))) = .next (s.onlyErr .configurationError)) ∧
    (buildOk w (s.cfg.poly w) (s.cfg.gen w) = true →
      s.afterBuild w (fun ts t => .next (t.deliver (f ts))) = .next (s.delivered w r)) := by
  rw [afterBuild_of_wf hs]
  refine ⟨fun hfails => by rw [hfails]; rfl, fun hbuild => ?_⟩
  rw [hbuild, ← hr ((buildSucceedsExactlyWhenValid w _ _).1 hbuild)]
  rfl

/-- Settles O18: the operands fit or not, and the product is the table formula of a valid pair. -/
theorem multiplyDeliversTheTableFormula : Obligations.MultiplyDeliversTheTableFormula := by
  intro s w hs
  rw [exec, execMultiply_supported]
  refine ⟨fun hwide => by rw [fits_and_fits_eq_false hwide]; rfl, fun ha hb => ?_⟩
  rw [if_pos (by rw [fits_iff.2 ha, fits_iff.2 hb]; rfl)]
  exact afterBuild_deliver_of_wf hs fun h => (gfMul_eq_pmul ..).trans (tableMul_eq_pmul h _ _).symm

/-- Settles O19: the operands fit or not, `EB` is 0 or not, and the quotient is the table formula of a valid pair. -/
theorem divideDeliversTheTableFormula : Obligations.DivideDeliversTheTableFormula := by
  intro s w hs
  rw [exec, execDivide_supported]
  refine ⟨fun hwide => by rw [fits_and_fits_eq_false hwide]; rfl, fun ha hb => ?_⟩
  rw [if_pos (by rw [fits_iff.2 ha, fits_iff.2 hb]; rfl)]
  refine ⟨fun hzero => if_pos hzero, ?_⟩
  rw [← forall_and]
  intro hne
  rw [if_neg hne]
  exact afterBuild_deliver_of_wf hs fun h => (tableDiv_eq_gfDiv h _ (setWidth_ne_zero_of_fits hb hne)).symm

/-- Settles O20: `EA` fits or not, it is 0 or not, and the inverse is the table formula of a valid pair. -/
theorem inverseDeliversTheTableFormula : Obligations.InverseDeliversTheTableFormula := by
  intro s w hs
  rw [exec, execInverse_supported]
  refine ⟨fun hwide => by rw [fits_eq_false_iff.2 hwide]; rfl, fun ha => ?_⟩
  rw [if_pos (fits_iff.2 ha)]
  refine ⟨fun hzero => if_pos hzero, ?_⟩
  rw [← forall_and]
  intro hne
  rw [if_neg hne]
  exact afterBuild_deliver_of_wf hs fun h => (tableInv_eq_gfInv h (setWidth_ne_zero_of_fits ha hne)).symm

end Sys2Proof.Machine
end

section
/-! PROOFS. The region commands (42_region_ops.md): what `region_xor` and `region_multiply` leave in memory, exactly when they are
refused, and the methods of computing a product. -/

namespace Sys2Proof.Machine

/-! ### What the positions leave in memory -/

/-- Where the order of the positions makes no difference, a byte that position `i` alone writes reads as that position leaves it on
the old memory: it can be taken first (20_memory.md R60, R61). -/
theorem read_foldl_position {step : Memory → Nat → Memory} {reads writes : Nat → Nat → Prop} {n i x : Nat} {m : Memory}
    (hm : m.wf) (hstep : ∀ j, Confined (step · j) (reads j) (writes j))
    (horder : ∀ order : List Nat, order.Perm (List.range n) → order.foldl step m = (List.range n).foldl step m)
    (hi : i < n) (hx : ∀ j, j < n → j ≠ i → ¬ writes j x) : ((List.range n).foldl step m).read x = (step m i).read x := by
  have hfirst : (List.range n).Perm (i :: (List.range n).erase i) := List.perm_cons_erase (List.mem_range.2 hi)
  have hothers : Confined (((List.range n).erase i).foldl step) (fun _ => True) (fun y => ∃ j, j < n ∧ j ≠ i ∧ writes j y) := by
    refine .foldl fun j hj => (hstep j).mono (fun _ _ => trivial) fun y hy => ?_
    obtain ⟨hji, hjn⟩ := List.nodup_range.mem_erase_iff.1 hj
    exact ⟨j, List.mem_range.1 hjn, hji, hy⟩
  rw [← horder _ hfirst.symm, List.foldl_cons]
  exact hothers.frame ((hstep i).wf hm) fun ⟨j, hjn, hji, hy⟩ => hx j hjn hji hy

/-- Every destination byte is the XOR of the two source bytes as they were (42_region_ops.md R141). -/
theorem read_xorPositions {m : Memory} {a b d n i : Nat} (hm : m.wf)
    (hda : NoPartialOverlap { base := d, len := n } { base := a, len := n })
    (hdb : NoPartialOverlap { base := d, len := n } { base := b, len := n }) (hi : i < n) :
    (xorPositions a b d m (List.range n)).read (d + i) = m.read (a + i) ^^^ m.read (b + i) :=
  (read_foldl_position hm (confined_xorPosition a b d)
    (fun order hperm => regionXorInAnyOrder m a b d n order hm hperm hda hdb) hi (by omega)).trans (read_write_same hm _ _)

/-- Every cleared byte is 0 (42_region_ops.md R146). -/
theorem read_clearPositions {m : Memory} {d n x : Nat} (hm : m.wf) (hx : Range.contains { base := d, len := n } x) :
    ((List.range n).foldl (clearPosition d) m).read x = 0x00#8 := by
  have hstore : (List.range n).foldl (clearPosition d) m = m.writeBytes d ((List.range n).map fun _ => 0x00#8) :=
    foldl_write_eq_writeBytes m d n fun _ => 0x00#8
  obtain ⟨i, rfl⟩ := Nat.exists_eq_add_of_le hx.1
  have hi : i < n := Nat.lt_of_add_lt_add_left hx.2
  obtain ⟨hinside, -⟩ := read_writeBytes hm d ((List.range n).map fun _ => 0x00#8)
  rw [hstore, hinside i (by simpa using hi), List.getElem_map]

/-! ### Elements in memory -/

/-- The bytes of the elements of a region are the region's bytes, in the byte order (20_memory.md R53). -/
theorem elemByte_readElem_region (m : Memory) (en : Endian) (w : Width) (base i : Nat) :
    elemByte (m.readElem en w (base + i / w.bytes * w.bytes)) (byteIndex en w.bytes (i % w.bytes)) = m.read (base + i) := by
  have hpos : 0 < w.bytes := by cases w <;> decide
  rw [elemByte_readElem _ _ _ (Nat.mod_lt i hpos), Nat.add_assoc, Nat.div_add_mod']

/-- An element whose bytes are all 0 is 0. -/
theorem readElem_eq_zero {m : Memory} {w : Width} {a : Nat} (en : Endian)
    (h : ∀ x, Range.contains { base := a, len := w.bytes } x → m.read x = 0#8) : m.readElem en w a = 0#w.bits := by
  refine elem_ext fun k hk => ?_
  have hlt := byteIndex_lt en hk
  rw [← byteIndex_byteIndex en hk, elemByte_readElem _ _ _ hlt, elemByte_zero]
  exact h _ (contains_mk.2 (by omega))

/-- One element: the copy that the constant 1 makes is the product too (42_region_ops.md R142, R147). -/
theorem scalePosition_eq (en : Endian) (w : Width) (ts : TableSet) (c : Elem w) (acc : Bool) (a d : Nat) (m : Memory) (j : Nat) :
    scalePosition en w ts c acc a d m j = m.writeElem en w (d + j * w.bytes)
      ((if acc then m.readElem en w (d + j * w.bytes) else 0#w.bits) ^^^
        pmul ts.poly c (m.readElem en w (a + j * w.bytes))) := by
  have hproduct (e : Elem w) : (if c = 1#w.bits then e else gfMul w ts c e) = pmul ts.poly c e := by
    split
    · next hc => rw [hc, one_pmul]
    · exact gfMul_eq_pmul w ts c e
  simp only [scalePosition, hproduct]
  cases acc
  · simp
  · simp [BitVec.xor_comm]

/-- Every destination element is the product, accumulated with `ACC = 1`, of the elements as they were (42_region_ops.md R142). -/
theorem readElem_scalePositions {m : Memory} {en : Endian} {w : Width} {a d n j : Nat} (ts : TableSet) (c : Elem w) (acc : Bool)
    (hm : m.wf) (hover : NoPartialOverlap { base := d, len := n * w.bytes } { base := a, len := n * w.bytes }) (hj : j < n) :
    (scalePositions en w ts c acc a d m (List.range n)).readElem en w (d + j * w.bytes) =
      (if acc then m.readElem en w (d + j * w.bytes) else 0#w.bits) ^^^
        pmul ts.poly c (m.readElem en w (a + j * w.bytes)) := by
  have horder (order : List Nat) (hperm : order.Perm (List.range n)) :=
    (regionMultiplyInAnyOrder m en w ts c acc a d n order hm hperm).1 hover
  have hown (x : Nat) (hx : (elemRange w d j).contains x) : (scalePositions en w ts c acc a d m (List.range n)).read x =
      (scalePosition en w ts c acc a d m j).read x :=
    read_foldl_position hm (confined_scalePosition en w ts c acc a d) horder hj
      fun i hi hij => elemRange_apart hj hi (Ne.symm hij) (.inl rfl) hx
  rw [readElem_congr en w _ hown, scalePosition_eq, readElem_writeElem hm]

/-- The memory after step 6 of `region_multiply`: with constant 0 the product is 0, and what is added to it or cleared stays. -/
theorem readElem_scaledMemory {m : Memory} {p : Port} {w : Width} {j : Nat} (en : Endian) (ts : TableSet) (acc : Bool) (hm : m.wf)
    (hover : p.ea ≠ 0#32 → NoPartialOverlap p.rangeD p.rangeA) (hlen : p.len.toNat % w.bytes = 0)
    (hj : j < p.len.toNat / w.bytes) :
    (scaledMemory en w ts acc p m).readElem en w (p.pd.toNat + j * w.bytes) =
      (if acc then m.readElem en w (p.pd.toNat + j * w.bytes) else 0#w.bits) ^^^
        pmul ts.poly (elem w p.ea) (m.readElem en w (p.pa.toNat + j * w.bytes)) := by
  unfold scaledMemory
  by_cases hc : p.ea = 0#32
  · have hzero : elem w p.ea = 0#w.bits := by rw [hc]; exact BitVec.setWidth_zero ..
    rw [hzero, zero_pmul, BitVec.xor_zero, if_pos hc]
    cases acc with
    | true => rfl
    | false => exact readElem_eq_zero en fun x hx => read_clearPositions hm (contains_of_elemRange hj hx)
  · have hwhole : p.len.toNat / w.bytes * w.bytes = p.len.toNat := Nat.div_mul_cancel (Nat.dvd_of_mod_eq_zero hlen)
    rw [if_neg hc]
    refine readElem_scalePositions ts _ acc hm ?_ hj
    rw [hwhole]
    exact hover hc

/-! ### Refusals -/

/-- `region_xor` that completes has valid regions, and writes the positions and `STATUS.ERR` only. -/
theorem exec_regionXor_next {s t : State} (h : exec .regionXor s = .next t) : XorRegionsOk s ∧ t =
    { s.onlyErr .none with
      mem := xorPositions s.port.pa.toNat s.port.pb.toNat s.port.pd.toNat s.mem (List.range s.port.len.toNat) } := by
  rcases execRegionXor_cases s with ⟨r, -, hr⟩ | ⟨hnone, hr⟩
  · cases h.symm.trans hr
  · exact ⟨xorProblem_eq_none.1 hnone, Host.Outcome.next.inj (h.symm.trans hr)⟩

/-- With three valid regions only a partial overlap is a problem (20_memory.md R62). -/
theorem xorProblem_of_regionsOk {c : Config} {p : Port} (ha : RegionOk c .reads p.rangeA) (hb : RegionOk c .reads p.rangeB)
    (hd : RegionOk c .writes p.rangeD) : xorProblem c p = none ∨ xorProblem c p = some .partialOverlap := by
  rw [xorProblem, regionProblem_eq_none.2 ha, regionProblem_eq_none.2 hb, regionProblem_eq_none.2 hd]
  split
  · exact .inr rfl
  · exact .inl rfl

/-- A region that runs past the top of the address space is refused as such, before anything else is looked at (20_memory.md R59). -/
theorem regionProblem_of_wraps {c : Config} {r : Range} (acc : Access) (h : 2 ^ c.aw < r.base + r.len) :
    regionProblem c acc r = some .regionWraps := by
  simp [regionProblem, Range.inSpace, h]

/-- Settles O36: the command is refused for the first problem, and its first problem is none exactly when the regions are valid. -/
theorem regionXorRefusedExactly : Obligations.RegionXorRefusedExactly := by
  intro s
  refine ⟨?_, fun ha hb hd hbad => ?_, fun hwraps => ?_⟩
  · rw [← xorProblem_eq_none]
    rcases execRegionXor_cases s with ⟨r, hr, hexec⟩ | ⟨hnone, hexec⟩
    · exact iff_of_true ⟨r, hexec⟩ (by simp [hr])
    · exact iff_of_false (fun ⟨r, hr⟩ => nomatch hexec.symm.trans hr) (by simp [hnone])
  · rcases xorProblem_of_regionsOk ha hb hd with hnone | hoverlap
    · exact absurd (xorProblem_eq_none.1 hnone) hbad
    · exact execRegionXor_of_problem hoverlap
  · refine execRegionXor_of_problem ?_
    rw [xorProblem, regionProblem_of_wraps (r := s.port.rangeA) .reads hwraps]
    rfl

theorem wholeElements_iff {w : Width} {len : Addr} : wholeElements w len = true ↔ len.toNat % w.bytes = 0 := beq_iff_eq

/-- The checks of a `region_multiply` that raises no error: a constant that fits, whole elements, and a width that is built or
builds (60_exceptions.md R176). -/
theorem regionMultiply_checks_of_no_error {s : State} {w : Width} {acc : Bool}
    (h : firstError (.regionMultiply (.supported w) acc) s = none) :
    fits w s.port.ea = true ∧ wholeElements w s.port.len = true ∧ s.getTables w ≠ none := by
  simp only [firstError, Instr.widthCode?, elementOperands, operandValueError, List.any_cons, List.any_nil, Bool.or_false,
    decide_eq_true_eq] at h
  split at h
  · cases h
  · next hea =>
    by_cases hlen : s.port.len.toNat % w.bytes = 0
    · refine ⟨fits_iff.2 (Nat.lt_of_not_le hea), wholeElements_iff.2 hlen, fun hnone => ?_⟩
      obtain ⟨hget, hfails⟩ := getTables_eq_none.1 hnone
      simp [hlen, State.built, hget, hfails] at h
    · simp [hlen] at h

/-- Without an error in the checks of 60_exceptions.md R176 a `region_multiply` is its step 6, on the tables of the width. -/
theorem exec_regionMultiply_of_no_error {s : State} {w : Width} {acc : Bool}
    (h : firstError (.regionMultiply (.supported w) acc) s = none) :
    ∃ ts t, exec (.regionMultiply (.supported w) acc) s = s.scaleRegion w acc ts t := by
  obtain ⟨hfits, hwhole, hget⟩ := regionMultiply_checks_of_no_error h
  obtain ⟨⟨ts, t⟩, hget⟩ := Option.ne_none_iff_exists'.1 hget
  exact ⟨ts, t, by rw [exec, execRegionMultiply_supported, if_pos hfits, if_pos hwhole, State.afterBuild, hget]⟩

theorem scaleRegion_refused_iff {s t : State} {w : Width} {acc : Bool} {ts : TableSet} :
    (∃ r, s.scaleRegion w acc ts t = .refused r) ↔ ¬ MultiplyRegionsOk s acc := by
  rw [← multiplyProblem_eq_none, State.scaleRegion]
  cases multiplyProblem s.cfg s.port acc <;> simp

/-- Settles O42: past the checks the command is its step 6, which is refused for the first problem of the regions. -/
theorem regionMultiplyRefusedExactly : Obligations.RegionMultiplyRefusedExactly := by
  intro s w acc h
  obtain ⟨ts, t, hexec⟩ := exec_regionMultiply_of_no_error h
  rw [hexec]
  exact scaleRegion_refused_iff

/-! ### `region_xor` -/

/-- A command changes no byte outside its destination region (20_memory.md R56). -/
theorem read_exec_outside {i : Instr} {s t : State} (hm : s.mem.wf) (h : exec i s = .next t) {x : Nat}
    (hx : ¬ s.port.rangeD.contains x) : t.mem.read x = s.mem.read x := by
  refine commandsWriteOnlyTheirDestination (encode i) s t x hm ?_ (.inr hx)
  rw [runWord, decodeWord_encode]
  exact h

theorem read_exec_regionXor {s t : State} (hm : s.mem.wf) (h : exec .regionXor s = .next t) {i : Nat}
    (hi : i < s.port.len.toNat) :
    t.mem.read (s.port.pd.toNat + i) = s.mem.read (s.port.pa.toNat + i) ^^^ s.mem.read (s.port.pb.toNat + i) := by
  obtain ⟨⟨-, -, -, hda, hdb⟩, rfl⟩ := exec_regionXor_next h
  exact read_xorPositions hm hda hdb hi

/-- Settles O34: on valid regions the command completes, and its positions write the destination only. -/
theorem regionXorStoresTheXor : Obligations.RegionXorStoresTheXor := by
  intro s hs hok
  have hexec : exec .regionXor s = _ := execRegionXor_of_no_problem (xorProblem_eq_none.2 hok)
  exact ⟨_, hexec, fun i hi => read_exec_regionXor hs.mem hexec hi, fun x hx => read_exec_outside hs.mem hexec hx⟩

/-- The registers with the two sources of `region_xor` exchanged. -/
def Port.swapSources (p : Port) : Port := { p with pa := p.pb, pb := p.pa }

/-- The preconditions of `region_xor` are the same for both sources. -/
theorem xorRegionsOk_swapSources {s : State} (hcur : s.cur < s.ports.length) (h : XorRegionsOk s) :
    XorRegionsOk (s.modifyPortAt s.cur Port.swapSources) := by
  have hport : (s.modifyPortAt s.cur Port.swapSources).port = s.port.swapSources := portAt_modify_same hcur _
  obtain ⟨ha, hb, hd, hda, hdb⟩ := h
  rw [XorRegionsOk, hport]
  exact ⟨hb, ha, hd, hdb, hda⟩

theorem xorPositions_comm (a b d : Nat) (m : Memory) (order : List Nat) :
    xorPositions b a d m order = xorPositions a b d m order := by
  refine List.foldl_ext _ _ _ fun m i _ => ?_
  rw [xorPosition, xorPosition, BitVec.xor_comm]

/-- With the sources exchanged `region_xor` completes with the same memory (42_region_ops.md R153). -/
theorem exec_regionXor_swapSources {s t : State} (hcur : s.cur < s.ports.length) (h : exec .regionXor s = .next t) :
    ∃ t', exec .regionXor (s.modifyPortAt s.cur Port.swapSources) = .next t' ∧ t'.mem = t.mem := by
  obtain ⟨hok, rfl⟩ := exec_regionXor_next h
  have hport : (s.modifyPortAt s.cur Port.swapSources).port = s.port.swapSources := portAt_modify_same hcur _
  refine ⟨_, execRegionXor_of_no_problem (xorProblem_eq_none.2 (xorRegionsOk_swapSources hcur hok)), ?_⟩
  rw [hport]
  exact xorPositions_comm ..

/-- The registers for the second command of 42_region_ops.md R153: the first command's destination is the first source. -/
def Port.fromDestination (tmp2 : Addr) (p : Port) : Port := { p with pa := p.pd, pd := tmp2 }

theorem port_after_regionXor {s t : State} (hcur : s.cur < s.ports.length) (h : exec .regionXor s = .next t) (tmp2 : Addr) :
    (t.modifyPortAt t.cur (Port.fromDestination tmp2)).port = { s.port.fromDestination tmp2 with err := .none } := by
  obtain ⟨-, rfl⟩ := exec_regionXor_next h
  have hport : (s.onlyErr .none).port = { s.port with err := .none } := portAt_modify_same hcur _
  refine (portAt_modify_same ((List.length_modify ..).symm ▸ hcur) _).trans ?_
  exact congrArg (Port.fromDestination tmp2) hport

/-- Settles O37: each command writes its XOR, the first leaves `b` as it was, and XOR is commutative. -/
theorem regionXorIsSelfInverse : Obligations.RegionXorIsSelfInverse := by
  refine ⟨fun s t u tmp2 hs hst hapart htu i hi => ?_, fun s t hs hst => exec_regionXor_swapSources (cur_lt_ports hs) hst⟩
  have hwf : t.Wf := completes_wf hs (exec_completes hst)
  have hport := port_after_regionXor (cur_lt_ports hs) hst tmp2
  have hfirst := read_exec_regionXor hs.mem hst hi
  have hb : t.mem.read (s.port.pb.toNat + i) = s.mem.read (s.port.pb.toNat + i) :=
    read_exec_outside hs.mem hst fun hd => hapart _ ⟨hd, contains_mk.2 (by omega)⟩
  have hsecond := read_exec_regionXor (s := t.modifyPortAt t.cur (Port.fromDestination tmp2)) hwf.mem htu (i := i)
    (by rw [hport]; exact hi)
  rw [hport] at hsecond
  calc u.mem.read (tmp2.toNat + i)
    _ = t.mem.read (s.port.pd.toNat + i) ^^^ t.mem.read (s.port.pb.toNat + i) := hsecond
    _ = s.mem.read (s.port.pa.toNat + i) := by rw [hfirst, hb, BitVec.xor_assoc, BitVec.xor_self, BitVec.xor_zero]

/-! ### `region_multiply` -/

/-- A constant that fits, whole elements, a width that builds and valid regions: the command completes. -/
theorem exec_regionMultiply_of_ok {s : State} {w : Width} {acc : Bool} (hs : s.Wf)
    (hbuild : buildOk w (s.cfg.poly w) (s.cfg.gen w) = true) (hea : s.port.ea.toNat < 2 ^ w.bits)
    (hlen : s.port.len.toNat % w.bytes = 0) (hok : MultiplyRegionsOk s acc) :
    exec (.regionMultiply (.supported w) acc) s = .next { s.onlyErr .none with
      mem := scaledMemory s.cfg.elemEndian w (s.fieldOf w) acc s.port s.mem, tables := s.tablesWith w } := by
  rw [exec, execRegionMultiply_supported, if_pos (fits_iff.2 hea), if_pos (wholeElements_iff.2 hlen), afterBuild_of_wf hs,
    if_pos hbuild, State.scaleRegion, multiplyProblem_eq_none.2 hok]
  rfl

theorem noPartialOverlap_of_multiplyRegionsOk {s : State} {acc : Bool} (h : MultiplyRegionsOk s acc) (hc : s.port.ea ≠ 0#32) :
    NoPartialOverlap s.port.rangeD s.port.rangeA := by
  rcases h with ⟨hzero, -⟩ | ⟨-, -, -, hover⟩
  · exact absurd hzero hc
  · exact hover

/-- Settles O38: the command completes, its elements are the products, and it writes its destination only. -/
theorem regionMultiplyStoresTheProducts : Obligations.RegionMultiplyStoresTheProducts := by
  intro s w acc hs hbuild hea hlen hok
  have hexec := exec_regionMultiply_of_ok hs hbuild hea hlen hok
  exact ⟨_, hexec, fun j => readElem_scaledMemory _ (s.fieldOf w) acc hs.mem (noPartialOverlap_of_multiplyRegionsOk hok) hlen,
    fun x hx => read_exec_outside hs.mem hexec hx⟩

/-- The constant 0 fits every width. -/
theorem toNat_lt_of_eq_zero {v : Word} (w : Width) (hv : v = 0#32) : v.toNat < 2 ^ w.bits := by
  rw [hv]
  exact Nat.two_pow_pos _

/-- Settles O39: 0 fits every width, so the checks left are those of the length and of the build; then the bytes are cleared or
memory is kept. -/
theorem constantZeroClearsTheDestination : Obligations.ConstantZeroClearsTheDestination := by
  intro s w acc hs hzero
  have hea := toNat_lt_of_eq_zero w hzero
  have hchecks : exec (.regionMultiply (.supported w) acc) s =
      if wholeElements w s.port.len then s.afterBuild w (s.scaleRegion w acc) else .next (s.onlyErr .invalidLength) := by
    rw [exec, execRegionMultiply_supported, if_pos (fits_iff.2 hea)]
  refine ⟨fun hlen => ?_, fun hlen => ⟨fun hfails => ?_, fun hbuild hd => ?_⟩⟩
  · rw [hchecks, if_neg (wholeElements_iff.not.2 hlen)]
  · rw [hchecks, if_pos (wholeElements_iff.2 hlen), afterBuild_of_wf hs, hfails]
    rfl
  · have hexec := exec_regionMultiply_of_ok (acc := acc) hs hbuild hea hlen (.inl ⟨hzero, hd⟩)
    refine ⟨_, hexec, fun hacc => ?_, fun hacc x hx => ?_, fun x hx => read_exec_outside hs.mem hexec hx⟩
    · rw [scaledMemory, if_pos hzero, if_pos hacc]
    · rw [scaledMemory, if_pos hzero, if_neg (by simp [hacc])]
      exact read_clearPositions hs.mem hx

/-- Settles O40: the product by 1 is the element itself (R147), so each byte of a destination element is that of the source, with
`ACC = 1` XORed into the old one. -/
theorem constantOneCopies : Obligations.ConstantOneCopies := by
  intro s w acc hs hbuild hone hlen hok
  have hea : s.port.ea.toNat < 2 ^ w.bits := by rw [hone]; cases w <;> decide
  obtain ⟨m, hexec, helems, houtside⟩ := regionMultiplyStoresTheProducts s w acc hs hbuild hea hlen hok
  refine ⟨m, hexec, fun i hi => ?_, houtside⟩
  have hj : i / w.bytes < s.port.len.toNat / w.bytes := Nat.div_lt_div_of_lt_of_dvd (Nat.dvd_of_mod_eq_zero hlen) hi
  have helem := helems _ hj
  have hc : (s.port.ea.setWidth w.bits : Elem w) = 1#w.bits := by rw [hone]; cases w <;> rfl
  rw [hc, one_pmul] at helem
  have hbyte := congrArg (elemByte · (byteIndex s.cfg.elemEndian w.bytes (i % w.bytes))) helem
  simp only [elemByte_xor, elemByte_readElem_region] at hbyte
  rw [hbyte]
  cases acc
  · rw [if_neg (by decide), if_neg (by decide), elemByte_zero]
  · rw [if_pos rfl, if_pos rfl, elemByte_readElem_region]

/-! ### The methods of computing a product -/

/-- An element is the XOR of its bytes at their places (42_region_ops.md R150). -/
theorem foldl_bytes_eq {w : Width} (e : Elem w) :
    (List.range w.bytes).foldl (fun v k => v ^^^ (elemByte e k).setWidth w.bits <<< (8 * k)) 0#w.bits = e :=
  elem_ext fun _ hk => (elemByte_gather .little (elemByte e) hk le_rfl).trans (if_pos hk)

/-- The product is additive, so it is the XOR of the products with the bytes. -/
theorem gfMulSplit_eq_pmul {w : Width} (ts : TableSet) (c e : Elem w) : gfMulSplit w ts c e = pmul ts.poly c e := by
  have hsum := List.foldl_hom (pmul ts.poly c) (g₁ := fun v k => v ^^^ (elemByte e k).setWidth w.bits <<< (8 * k))
    (g₂ := fun r k => r ^^^ ts.split w c k (elemByte e k)) (l := List.range w.bytes) (init := 0#w.bits)
    fun v k => (pmul_xor_right ts.poly c v _).symm
  rw [pmul_zero, foldl_bytes_eq] at hsum
  exact hsum

/-- Settles O44: the table formula is the product in the field of a valid pair, the split tables add up to it because it is
additive, and the full table holds it. -/
theorem allMethodsAgree : Obligations.AllMethodsAgree := by
  intro s w ts hs hts
  obtain ⟨hformula, -⟩ := tableFormulasComputeTheProduct s w ts hs hts
  obtain ⟨rfl, -⟩ := hs.tables w ts hts
  refine ⟨hformula, gfMulSplit_eq_pmul (s.fieldOf w), fun t8 ht8 c e => ?_⟩
  obtain ⟨rfl, -⟩ := hs.tables .w8 t8 ht8
  rfl

end Sys2Proof.Machine
end

section
/-! PROOFS. The errors (60_exceptions.md R170 to R177): the checks of a command in their order, what the first error leaves, and
what a command without an error leaves. -/

namespace Sys2Proof.Machine

/-! ### The checks in their order -/

/-- Steps 3 and 4 of 60_exceptions.md R176 at the width `w`: the range of the element operands, then the operands' values. -/
def operandError (i : Instr) (w : Width) (p : Port) : Option ErrCode :=
  if (elementOperands i p).all (fits w) then operandValueError i w p else some .badOperand

/-- Step 6 of 60_exceptions.md R176: the end of a command on the tables of its width and the state with the width built. -/
def State.lastStep (s : State) (i : Instr) (w : Width) (ts : TableSet) (t : State) : Out :=
  match i with
  | .initField _ => .next (t.onlyErr .none)
  | .multiply _ => .next (t.deliver (gfMul w ts (elem w s.port.ea) (elem w s.port.eb)))
  | .divide _ => .next (t.deliver (gfDiv w ts (elem w s.port.ea) (elem w s.port.eb)))
  | .inverse _ => .next (t.deliver (gfInv w ts (elem w s.port.ea)))
  | .regionXor => execRegionXor s
  | .regionMultiply _ acc => s.scaleRegion w acc ts t

section Checks
variable {s : State} {i : Instr} {w : Width}

theorem operandError_of_wide {v : Word} (hv : v ∈ elementOperands i s.port) (hwide : 2 ^ w.bits ≤ v.toNat) :
    operandError i w s.port = some .badOperand :=
  if_neg fun hall => absurd (fits_iff.1 (List.all_eq_true.1 hall v hv)) (Nat.not_lt.2 hwide)

theorem operandError_of_fits (hfits : ∀ v ∈ elementOperands i s.port, v.toNat < 2 ^ w.bits) :
    operandError i w s.port = operandValueError i w s.port :=
  if_pos (List.all_eq_true.2 fun v hv => fits_iff.2 (hfits v hv))

/-- An operand is too wide exactly when not all of them fit. -/
theorem any_wide_eq_not_all_fits (vs : List Word) :
    vs.any (fun v => decide (2 ^ w.bits ≤ v.toNat)) = !vs.all (fits w) := by
  simp only [List.not_all_eq_any_not, fits, ← decide_not, Nat.not_lt]

/-- The first error is that of the operands, and else that of the build. -/
theorem firstError_of_supported (hi : i.widthCode? = some (.supported w)) : firstError i s =
    (operandError i w s.port).or (if s.getTables w = none then some .configurationError else none) := by
  have hbuild : s.getTables w = none ↔ (!s.built w && !buildOk w (s.cfg.poly w) (s.cfg.gen w)) = true := by
    simp [getTables_eq_none, State.built]
  simp only [firstError, hi, operandError, any_wide_eq_not_all_fits, hbuild]
  cases (elementOperands i s.port).all (fits w)
  · rfl
  · cases operandValueError i w s.port <;> rfl

/-- A command of a width raises the error of its operands, and else goes on to the build and its last step. -/
theorem exec_of_supported (hi : i.widthCode? = some (.supported w)) : exec i s =
    (operandError i w s.port).elim (s.afterBuild w (s.lastStep i w)) fun e => .next (s.onlyErr e) := by
  cases i with
  | initField wc =>
    obtain rfl := Option.some.inj hi
    exact execInitField_supported w s
  | multiply wc =>
    obtain rfl := Option.some.inj hi
    rw [exec, execMultiply_supported, operandError, elementOperands, List.all_cons, List.all_cons, List.all_nil, Bool.and_true]
    split <;> rfl
  | divide wc =>
    obtain rfl := Option.some.inj hi
    rw [exec, execDivide_supported, operandError, elementOperands, List.all_cons, List.all_cons, List.all_nil, Bool.and_true,
      operandValueError]
    split_ifs <;> rfl
  | inverse wc =>
    obtain rfl := Option.some.inj hi
    rw [exec, execInverse_supported, operandError, elementOperands, List.all_cons, List.all_nil, Bool.and_true,
      operandValueError]
    split_ifs <;> rfl
  | regionXor => cases hi
  | regionMultiply wc acc =>
    obtain rfl := Option.some.inj hi
    rw [exec, execRegionMultiply_supported, operandError, elementOperands, List.all_cons, List.all_nil, Bool.and_true,
      operandValueError]
    simp only [wholeElements_iff, ne_eq, ite_not]
    split_ifs <;> rfl

theorem exec_of_operandError {e : ErrCode} (hi : i.widthCode? = some (.supported w)) (h : operandError i w s.port = some e) :
    exec i s = .next (s.onlyErr e) := by
  rw [exec_of_supported hi, h]
  rfl

theorem exec_of_wide {v : Word} (hi : i.widthCode? = some (.supported w)) (hv : v ∈ elementOperands i s.port)
    (hwide : 2 ^ w.bits ≤ v.toNat) : exec i s = .next (s.onlyErr .badOperand) :=
  exec_of_operandError hi (operandError_of_wide hv hwide)

/-- A command with an error in the checks raises the first one, and that is all it does. -/
theorem exec_of_firstError {e : ErrCode} (h : firstError i s = some e) : exec i s = .next (s.onlyErr e) := by
  match hi : i.widthCode? with
  | none => simp [firstError, hi] at h
  | some .unsupported =>
    obtain rfl : .configurationError = e := by simpa [firstError, hi] using h
    exact exec_of_not_wellFormed (by simp [Instr.WellFormed, Instr.isLegal, hi, WidthCode.isSupported]) s
  | some (.supported w) =>
    rw [firstError_of_supported hi] at h
    cases herr : operandError i w s.port with
    | some e' =>
      obtain rfl : e' = e := by simpa [herr] using h
      exact exec_of_operandError hi herr
    | none =>
      obtain ⟨hget, rfl⟩ : s.getTables w = none ∧ .configurationError = e := by simpa [herr] using h
      rw [exec_of_supported hi, herr, Option.elim, State.afterBuild, hget]

theorem eq_regionXor_of_widthCode?_eq_none (hi : i.widthCode? = none) : i = .regionXor := by
  cases i with
  | regionXor => rfl
  | initField | multiply | divide | inverse | regionMultiply => cases hi

/-- A command without an error in the checks completes with `STATUS.ERR` at 0, or it is a region command that is refused. -/
theorem exec_of_no_firstError (h : firstError i s = none) :
    (∃ er tb m, exec i s = .next (s.ended er .none tb m)) ∨
      (∃ r, exec i s = .refused r) ∧ (i = .regionXor ∨ ∃ w acc, i = .regionMultiply w acc) := by
  match hi : i.widthCode? with
  | none =>
    obtain rfl := eq_regionXor_of_widthCode?_eq_none hi
    rcases execRegionXor_cases s with ⟨r, -, hr⟩ | ⟨-, hr⟩
    · exact .inr ⟨⟨r, hr⟩, .inl rfl⟩
    · exact .inl ⟨_, _, _, hr.trans (by rw [onlyErr_eq_ended]; rfl)⟩
  | some .unsupported => simp [firstError, hi] at h
  | some (.supported w) =>
    rw [firstError_of_supported hi, Option.or_eq_none_iff] at h
    obtain ⟨herr, hbuild⟩ := h
    obtain ⟨⟨ts, t⟩, hget⟩ := Option.ne_none_iff_exists'.1 fun hnone : s.getTables w = none => by simp [hnone] at hbuild
    have hexec : exec i s = s.lastStep i w ts t := by
      rw [exec_of_supported hi, herr, Option.elim, State.afterBuild, hget]
    rw [hexec]
    have ht := getTables_frame hget
    cases i with
    | initField wc => exact .inl ⟨_, _, _, by rw [State.lastStep, onlyErr_eq_ended, ht]; rfl⟩
    | multiply wc | divide wc | inverse wc => exact .inl ⟨_, _, _, by rw [State.lastStep, ht]; rfl⟩
    | regionXor => cases hi
    | regionMultiply wc acc =>
      rw [State.lastStep, State.scaleRegion]
      cases multiplyProblem s.cfg s.port acc with
      | some r => exact .inr ⟨⟨r, rfl⟩, .inr ⟨_, _, rfl⟩⟩
      | none => exact .inl ⟨_, _, _, by rw [onlyErr_eq_ended, ht]; rfl⟩

/-! ### `STATUS.ERR` after a command -/

/-- The error code that the command's end leaves is the one written, or no error: that of a port that does not exist
(notes/assumptions/23.md). -/
theorem ended_port_err (s : State) (er : Word) (e : ErrCode) (tb : Tables) (m : Memory) :
    (s.ended er e tb m).port.err = .none ∨ (s.ended er e tb m).port.err = e := by
  by_cases hcur : s.cur < s.ports.length
  · exact .inr (by rw [ended_port hcur])
  · refine .inl ?_
    have hports : s.ports.length ≤ s.cur := Nat.le_of_not_lt hcur
    simp [State.port, State.portAt, State.ended, hports, Port.afterReset]

theorem onlyErr_port_err_cases (s : State) (e : ErrCode) : (s.onlyErr e).port.err = .none ∨ (s.onlyErr e).port.err = e := by
  rw [onlyErr_eq_ended]
  exact ended_port_err ..

/-- A command that completes leaves no error code, or that of its first error. -/
theorem err_of_exec {t : State} (h : exec i s = .next t) : t.port.err = .none ∨ firstError i s = some t.port.err := by
  cases he : firstError i s with
  | some e =>
    cases h.symm.trans (exec_of_firstError he)
    exact (onlyErr_port_err_cases s e).imp_right fun herr => congrArg some herr.symm
  | none =>
    rcases exec_of_no_firstError he with ⟨er, tb, m, hend⟩ | ⟨⟨r, hr⟩, -⟩
    · cases h.symm.trans hend
      exact .inl ((ended_port_err ..).elim id id)
    · cases h.symm.trans hr

theorem operandValueError_eq_invalidLength {p : Port} (h : operandValueError i w p = some .invalidLength) :
    (∃ wc acc, i = .regionMultiply wc acc) ∧ p.len.toNat % w.bytes ≠ 0 := by
  cases i with
  | initField | multiply | regionXor => cases h
  | divide | inverse =>
    rw [operandValueError] at h
    split at h <;> cases h
  | regionMultiply wc acc =>
    rw [operandValueError] at h
    split at h
    · next hlen => exact ⟨⟨wc, acc, rfl⟩, hlen⟩
    · cases h

/-- Only a `region_multiply` leaves InvalidLength, and only when its length is no whole number of elements
(60_exceptions.md R173). -/
theorem exec_leaves_invalidLength {t : State} (h : exec i s = .next t) (herr : t.port.err = .invalidLength) :
    ∃ w acc, i = .regionMultiply (.supported w) acc ∧ s.port.len.toNat % w.bytes ≠ 0 := by
  have hfirst : firstError i s = some .invalidLength := by simpa [herr] using err_of_exec h
  match hi : i.widthCode? with
  | none | some .unsupported => simp [firstError, hi] at hfirst
  | some (.supported w) =>
    have hoperands : operandError i w s.port = some .invalidLength := by simpa [firstError_of_supported hi] using hfirst
    have hvalue : operandValueError i w s.port = some .invalidLength := by
      rw [operandError] at hoperands
      split at hoperands
      · exact hoperands
      · cases hoperands
    obtain ⟨⟨wc, acc, rfl⟩, hlen⟩ := operandValueError_eq_invalidLength hvalue
    obtain rfl := Option.some.inj hi
    exact ⟨w, acc, rfl, hlen⟩

end Checks

/-- Settles O24: an operand that is read and too wide is the error of the operands. -/
theorem wideOperandRaisesBadOperand : Obligations.WideOperandRaisesBadOperand := by
  intro s w acc
  refine ⟨fun hwide => ?_, fun hwide => ⟨exec_of_wide rfl (.head _) hwide, exec_of_wide rfl (.head _) hwide⟩⟩
  rcases hwide with hwide | hwide
  · exact ⟨exec_of_wide rfl (.head _) hwide, exec_of_wide rfl (.head _) hwide⟩
  · exact ⟨exec_of_wide rfl (.tail _ (.head _)) hwide, exec_of_wide rfl (.tail _ (.head _)) hwide⟩

/-- Settles O25: the operands fit, 0 among them, so the error of the operands is that of their values. -/
theorem zeroDivisorRaisesDivisionByZero : Obligations.ZeroDivisorRaisesDivisionByZero := by
  intro s w
  refine ⟨fun ha hb => exec_of_operandError rfl ?_, fun ha => exec_of_operandError rfl ?_⟩
  · rw [operandError_of_fits (by simp [elementOperands, ha, toNat_lt_of_eq_zero w hb])]
    exact if_pos hb
  · rw [operandError_of_fits (by simp [elementOperands, toNat_lt_of_eq_zero w ha])]
    exact if_pos ha

theorem exec_regionMultiply_of_partial {s : State} {w : Width} {acc : Bool} (hea : s.port.ea.toNat < 2 ^ w.bits)
    (hlen : s.port.len.toNat % w.bytes ≠ 0) :
    exec (.regionMultiply (.supported w) acc) s = .next (s.onlyErr .invalidLength) := by
  refine exec_of_operandError rfl ?_
  rw [operandError_of_fits (by simp [elementOperands, hea])]
  exact if_pos hlen

/-- Settles O26: a constant that fits leaves the check of the length, which passes at width 8 and which `region_xor` does not
make. -/
theorem partialElementRaisesInvalidLength : Obligations.PartialElementRaisesInvalidLength := by
  intro s acc
  refine ⟨fun hea hlen => ?_, fun hlen => ?_, fun t ht herr => ?_, fun t ht herr => ?_⟩
  · exact exec_regionMultiply_of_partial hea (hlen.trans_ne Nat.one_ne_zero)
  · exact exec_regionMultiply_of_partial s.port.ea.isLt hlen
  · obtain ⟨w, acc', hi, hlen⟩ := exec_leaves_invalidLength ht herr
    cases hi
    exact hlen (Nat.mod_one _)
  · obtain ⟨w, acc', hi, -⟩ := exec_leaves_invalidLength ht herr
    cases hi

/-- Settles O27, by what the decoder's error, the first error and its absence each leave. -/
theorem checksAreMadeInOrder : Obligations.ChecksAreMadeInOrder := by
  intro c s _
  refine ⟨fun r hr => runWord_of_decodeWord_error hr s, fun i hi => ?_⟩
  rw [runWord_of_decodeWord_ok hi]
  refine ⟨fun e => exec_of_firstError, fun hnone => ⟨fun t ht => ?_, ?_⟩⟩
  · rcases err_of_exec ht with herr | herr
    · exact herr
    · cases hnone.symm.trans herr
  · exact (exec_of_no_firstError hnone).imp_left fun ⟨er, tb, m, hend⟩ => ⟨_, hend⟩

/-- Settles O28: the code left is that of the illegal word or of the first error, which is the only effect. -/
theorem errorsHaveNoOtherEffect : Obligations.ErrorsHaveNoOtherEffect := by
  intro c s t hcur h herr
  cases hd : decodeWord c with
  | error r =>
    cases h.symm.trans (runWord_of_decodeWord_error hd s)
    rw [onlyErr_port_err _ hcur]
  | ok i =>
    rw [runWord_of_decodeWord_ok hd] at h
    have hfirst := (err_of_exec h).resolve_left herr
    exact Host.Outcome.next.inj (h.symm.trans (exec_of_firstError hfirst))

end Sys2Proof.Machine
end

section
/-! PROOFS. Reset, the hold, and the progress of a run (70_reset_and_hazards.md R190, R191, R194, R196): what a reset leaves, which
command a held access completes, and a measure that every step lowers until nothing is left to do. -/

namespace Sys2Proof.Machine

/-! ### Reset -/

theorem err_of_mem_portsAfterReset {c : Config} {draw : Nat} {p : Port} (h : p ∈ portsAfterReset c draw) : p.err = .none := by
  obtain ⟨q, -, rfl⟩ := List.mem_map.1 h
  rfl

/-- A reset leaves the bytes outside the destination regions of the region commands it cuts short. -/
theorem read_memAfterReset_outside {s : State} (hm : s.mem.wf) {x : Nat}
    (hx : ∀ f ∈ s.inFlight, (decodeWord f.word = .ok .regionXor ∨ ∃ w acc, decodeWord f.word = .ok (.regionMultiply w acc)) →
      ¬ (s.portAt f.port).rangeD.contains x) :
    (memAfterReset s.draws s.mem (s.inFlight.flatMap s.destinationsOf)).read x = s.mem.read x := by
  refine (read_memAfterReset hm _ _ x).2 fun r hr hrx => ?_
  obtain ⟨f, hf, hr⟩ := List.mem_flatMap.1 hr
  obtain ⟨rfl, hregion⟩ := mem_destinationsOf.1 hr
  exact hx f hf hregion (clip_contains.1 hrx).1

/-- Settles O55: the reset is never held, and only the freed regions of memory change. -/
theorem resetActionResetsTheEngine : Obligations.ResetActionResetsTheEngine := by
  intro s rest hm hhost
  refine ⟨_, step_of_unheld hhost rfl, rfl, rfl, rfl, fun w => ?_, ?_, fun _ => err_of_mem_portsAfterReset,
    fun x => read_memAfterReset_outside hm⟩
  · exact congrArg Option.isSome (unbuilt_get w)
  · simp [portsAfterReset]

/-! ### The hold -/

/-- With at most one command in flight per port, each is the one found on its port. -/
theorem flightOn_of_mem {s : State} {f : Flight} (hf : f ∈ s.inFlight)
    (hone : s.inFlight.Pairwise fun f g => f.port ≠ g.port) : s.flightOn f.port = some f := by
  cases hg : s.flightOn f.port with
  | none => exact absurd rfl (flightOn_eq_none.1 hg f hf)
  | some g =>
    obtain ⟨hmem, hport⟩ := mem_of_flightOn hg
    rw [List.inj_on_of_nodup_map (List.pairwise_map.2 hone) hmem hf hport]

/-- An access to the registers of a port with a command in flight is held: the step completes the command. -/
theorem step_of_held {s : State} {a : HostAction} {rest : List HostAction} {p : Nat} {f : Flight} (hhost : s.host = a :: rest)
    (hport : a.heldPort? = some p) (hf : s.flightOn p = some f) : step s = runWord f.word (s.landed p) := by
  rw [step, hhost]
  simp [nextAction, State.holding?, hport, hf, finishOn_of_flight]

/-- Settles O52: the three accesses reach the port, and the command is the one found on it. -/
theorem accessIsHeldUntilCompletion : Obligations.AccessIsHeldUntilCompletion := by
  intro s a rest f n v c hhost hf hone ha
  have hport : a.heldPort? = some f.port := by rcases ha with rfl | rfl | rfl <;> rfl
  exact step_of_held hhost hport (flightOn_of_mem hf hone)

/-! ### Progress -/

/-- What the host and the engine still have to do: a waiting action counts twice, as it may put a command in flight. -/
def State.remaining (s : State) : Nat := 2 * s.host.length + s.inFlight.length

theorem remaining_eq_zero {s : State} : s.remaining = 0 ↔ s.host = [] ∧ s.inFlight = [] := by
  simp [State.remaining]

/-- A command that runs leaves the host's sequence and the commands in flight alone. -/
theorem runWord_keeps_host_inFlight {c : Word} {s t : State} (h : runWord c s = .next t) :
    t.host = s.host ∧ t.inFlight = s.inFlight := by
  obtain ⟨er, err, tb, m, rfl⟩ := runWord_ended h
  exact ⟨rfl, rfl⟩

/-- A command in flight that completes is in flight no more. -/
theorem landed_inFlight_length_lt {s : State} {p : Nat} {f : Flight} (hf : s.flightOn p = some f) :
    (s.landed p).inFlight.length < s.inFlight.length := by
  obtain ⟨hmem, hport⟩ := mem_of_flightOn hf
  exact List.length_filter_lt_length_iff_exists.2 ⟨f, hmem, by simp [hport]⟩

/-- An action that is performed leaves the actions behind it, and puts at most one command in flight. -/
theorem performed_host_inFlight {a : HostAction} {s t : State} (h : Performed s a t) :
    t.host = s.host ∧ t.inFlight.length ≤ s.inFlight.length + 1 := by
  cases h with
  | command p v _ hp hv hrace hrun =>
    obtain ⟨hhost, hflights⟩ := runWord_keeps_host_inFlight hrun
    exact ⟨hhost, hflights ▸ Nat.le_succ _⟩
  | finished p f _ hf hrun =>
    obtain ⟨hhost, hflights⟩ := runWord_keeps_host_inFlight hrun
    exact ⟨hhost, hflights ▸ (landed_inFlight_length_lt hf).le.trans (Nat.le_succ _)⟩
  | started => exact ⟨rfl, by simp⟩
  | reset _ ht => cases ht; exact ⟨rfl, Nat.zero_le _⟩
  | written | read | stored | loaded | nothing | built => exact ⟨rfl, Nat.le_succ _⟩

theorem finish_remaining_lt {p : Nat} {s t : State} (h : Performed s (.finish p) t)
    (hflight : (s.flightOn p).isSome = true) : t.remaining < s.remaining := by
  cases h with
  | nothing _ q ha hnone =>
    obtain rfl : p = q := by simpa using ha
    simp [hnone] at hflight
  | finished _ f _ hf hrun =>
    obtain ⟨hhost, hflights⟩ := runWord_keeps_host_inFlight hrun
    rw [State.remaining, hhost, hflights]
    exact Nat.add_lt_add_left (landed_inFlight_length_lt hf) _

/-- A step leaves less to do, if anything was. -/
theorem step_remaining {s t : State} (h : step s = .next t) : t.remaining < s.remaining ∨ s.remaining = 0 ∧ t = s := by
  rcases step_performed h with ⟨hhost, hflights, rfl⟩ | ⟨a, rest, -, hp, hhost | ⟨rfl, p, rfl, hflight⟩⟩
  · exact .inr ⟨remaining_eq_zero.2 ⟨hhost, hflights⟩, rfl⟩
  · obtain ⟨htail, hflights⟩ := performed_host_inFlight hp
    left
    simp only [State.remaining, hhost, htail, List.length_cons] at hflights ⊢
    omega
  · exact .inl (finish_remaining_lt (s := s) hp hflight)

/-- Each step of a run leaves less to do, as long as anything is. -/
theorem runSteps_remaining {n : Nat} {s t : State} (h : runSteps n s = .next t) : t.remaining ≤ s.remaining - n := by
  induction n generalizing s with
  | zero => cases h; exact Nat.le_refl _
  | succ n ih =>
    rw [runSteps] at h
    cases hstep : step s with
    | next u =>
      rw [hstep] at h
      have hrest := ih h
      rcases step_remaining hstep with hlt | ⟨hzero, rfl⟩ <;> omega
    | fault r => rw [hstep] at h; cases h
    | refused r => rw [hstep] at h; cases h

/-- Settles O59: what remains falls with every step, so as many steps as remain leave nothing. -/
theorem everyStepMakesProgress : Obligations.EveryStepMakesProgress := by
  refine ⟨fun s t hbusy h => ?_, fun s t h => ?_⟩
  · refine (step_remaining h).resolve_right fun ⟨hzero, _⟩ => ?_
    obtain ⟨hhost, hflights⟩ := remaining_eq_zero.1 hzero
    exact hbusy.elim (absurd hhost) (absurd hflights)
  · exact remaining_eq_zero.1 (Nat.le_zero.1 ((runSteps_remaining h).trans (Nat.sub_self _).le))

end Sys2Proof.Machine
end
